-- ==== Sys2Proof/Word.lean ====
section
/-! DEFINITION. The word and the byte of the machine. -/

namespace Sys2Proof

/-- A word of `WORD_BITS = 16` bits: every register, memory cell and operand (00_scope.md R7, 10_state.md R20). -/
abbrev Word := BitVec 16

/-- A byte, `0 .. 255` (00_scope.md R7). -/
abbrev Byte := BitVec 8

end Sys2Proof
end

