-- ==== Sys2Proof/Syntax.lean ====
section
/-! DEFINITION. Registers, operands, opcodes, draw functions and the instructions: one constructor of `Instr` per row
of the opcode table. -/

namespace Sys2Proof

/-- The 25 registers in their three bands (10_state.md R21): R0 to R7, V0 to V15, K0. -/
inductive Reg where
  | gen (i : Fin 8)
  | vid (i : Fin 16)
  | k0
deriving DecidableEq, Repr

/-- Every register, in the order of the storage indices (10_state.md R21). -/
def Reg.all : List Reg :=
  (List.finRange 8).map Reg.gen ++ (List.finRange 16).map Reg.vid ++ [Reg.k0]

/-- The fifteen opcodes (00_scope.md R2). -/
inductive Opcode where
  | nop | mov | add | sub | mul | div | inc | load | store | jmp | cmp | je | jne | call | hlt
deriving DecidableEq, Repr

/-- Every opcode, in the order of 30_encoding.md R83. -/
def Opcode.all : List Opcode :=
  [.nop, .mov, .add, .sub, .mul, .div, .inc, .load, .store, .jmp, .cmp, .je, .jne, .call, .hlt]

/-- The seven draw functions `call` selects among (00_scope.md R2). -/
inductive DrawFn where
  | clearScreen | fillScreen | drawLine | drawBmp | fillRect | fillQuad | drawCharacter
deriving DecidableEq, Repr

/-- Every draw function, in the order of 45_call.md R176. -/
def DrawFn.all : List DrawFn :=
  [.clearScreen, .fillScreen, .drawLine, .drawBmp, .fillRect, .fillQuad, .drawCharacter]

/-- An argument word as the decoder keeps it: "its raw word `a` together with its classification `reg(a)`"
(30_encoding.md R82, R87); `reg = none` is an immediate. -/
structure Operand where
  raw : Word
  reg : Option Reg
deriving DecidableEq, Repr

/-- A decoded instruction (30_encoding.md R82): the opcode and its arguments in the order of their words in memory
(R89). The fallback `invalid` (R91) has no row in the opcode table; the decoder answers it as a refusal by name. -/
inductive Instr where
  /-- `nop` (44_halt_nop.md R166). -/
  | nop
  /-- `mov Rd, imm` (41_move_arith.md R126). -/
  | mov (arg1 arg2 : Operand)
  /-- `add Rd, imm` (41_move_arith.md R127). -/
  | add (arg1 arg2 : Operand)
  /-- `sub Rd, imm` (41_move_arith.md R128). -/
  | sub (arg1 arg2 : Operand)
  /-- `mul Rd, imm` (41_move_arith.md R129). -/
  | mul (arg1 arg2 : Operand)
  /-- `div Rd, imm` (41_move_arith.md R130). -/
  | div (arg1 arg2 : Operand)
  /-- `inc Rd` (41_move_arith.md R131). -/
  | inc (arg1 : Operand)
  /-- `load Rd, addr` (42_load_store.md R141). -/
  | load (arg1 arg2 : Operand)
  /-- `store addr, Rs` (42_load_store.md R142). -/
  | store (arg1 arg2 : Operand)
  /-- `jmp target` (43_compare_jump.md R151). -/
  | jmp (arg1 : Operand)
  /-- `cmp Rs, imm` (43_compare_jump.md R150). -/
  | cmp (arg1 arg2 : Operand)
  /-- `je target` (43_compare_jump.md R152). -/
  | je (arg1 : Operand)
  /-- `jne target` (43_compare_jump.md R153). -/
  | jne (arg1 : Operand)
  /-- `call fn` (45_call.md R175). -/
  | call (arg1 : Operand)
  /-- `hlt` (44_halt_nop.md R165). -/
  | hlt
deriving DecidableEq, Repr

/-- The opcode of an instruction. -/
def Instr.opcode : Instr → Opcode
  | .nop => .nop
  | .mov _ _ => .mov
  | .add _ _ => .add
  | .sub _ _ => .sub
  | .mul _ _ => .mul
  | .div _ _ => .div
  | .inc _ => .inc
  | .load _ _ => .load
  | .store _ _ => .store
  | .jmp _ => .jmp
  | .cmp _ _ => .cmp
  | .je _ => .je
  | .jne _ => .jne
  | .call _ => .call
  | .hlt => .hlt

/-- The arguments of an instruction, in the order of their words. -/
def Instr.operands : Instr → List Operand
  | .nop => []
  | .mov a b => [a, b]
  | .add a b => [a, b]
  | .sub a b => [a, b]
  | .mul a b => [a, b]
  | .div a b => [a, b]
  | .inc a => [a]
  | .load a b => [a, b]
  | .store a b => [a, b]
  | .jmp a => [a]
  | .cmp a b => [a, b]
  | .je a => [a]
  | .jne a => [a]
  | .call a => [a]
  | .hlt => []

end Sys2Proof
end

