-- ==== Sys2Proof/Config.lean ====
section
/-! DEFINITION. The configuration of 00_scope.md R5: the OPEN parameters and the four tables. It is plain data that a
state carries and no step changes (log entry 4), so every statement over every state holds for every configuration.
The lookups and the decided values of the tables stand in Decode.lean, the launch configuration and the derived sizes
in Machine/Launch.lean. -/

namespace Sys2Proof

/-- A coverage sample of the glyph provider (49_draw_bitmap_glyph.md R254): an offset of either sign from the draw
position and a coverage `cov / 255`. -/
structure Sample where
  dx : Int
  dy : Int
  cov : Byte
deriving DecidableEq, Repr

/-- `VARG` (45_call.md R177): which video-argument register (its number, `0 .. 15`) carries which draw argument. -/
structure VArg where
  red : Fin 16
  green : Fin 16
  blue : Fin 16
  p1x : Fin 16
  p1y : Fin 16
  p2x : Fin 16
  p2y : Fin 16
  p3x : Fin 16
  p3y : Fin 16
  p4x : Fin 16
  p4y : Fin 16
  scalar : Fin 16
  char : Fin 16
deriving DecidableEq, Repr

/-- The registers of the thirteen roles, in the order of 45_call.md R177. -/
def VArg.roles (v : VArg) : List (Fin 16) :=
  [v.red, v.green, v.blue, v.p1x, v.p1y, v.p2x, v.p2y, v.p3x, v.p3y, v.p4x, v.p4y, v.scalar, v.char]

/-- The four encoding tables (00_scope.md R5). -/
structure Tables where
  /-- `OPC`, from tag byte to opcode (30_encoding.md R83). -/
  opc : List (Byte × Opcode)
  /-- `REGENC`, from operand word to register (30_encoding.md R87). -/
  regenc : List (Word × Reg)
  /-- `FNID`, from call identifier to draw function (45_call.md R176). -/
  fnid : List (Word × DrawFn)
  /-- `VARG`, the roles of the video-argument registers (45_call.md R177). -/
  varg : VArg
deriving DecidableEq, Repr

/-- `REGENC`: `reg(a)`, the register whose encoding is the word `a`, or `none`. -/
def Tables.regOf (T : Tables) (a : Word) : Option Reg := T.regenc.lookup a

/-- "required: each injective" (93_implementation_defined.md U19): no tag, encoding or identifier is used twice, every
opcode, register and draw function has exactly one, and no two roles share a video-argument register. -/
abbrev Tables.wf (T : Tables) : Prop :=
  ((T.opc.map Prod.fst).Nodup ∧ (T.opc.map Prod.snd).Nodup ∧ ∀ op ∈ Opcode.all, op ∈ T.opc.map Prod.snd) ∧
  ((T.regenc.map Prod.fst).Nodup ∧ (T.regenc.map Prod.snd).Nodup ∧ ∀ r ∈ Reg.all, r ∈ T.regenc.map Prod.snd) ∧
  ((T.fnid.map Prod.fst).Nodup ∧ (T.fnid.map Prod.snd).Nodup ∧ ∀ f ∈ DrawFn.all, f ∈ T.fnid.map Prod.snd) ∧
  T.varg.roles.Nodup

/-- The configuration of a machine (00_scope.md R5). -/
structure Config where
  /-- `MEM_WORDS`, OPEN, `1 <= MEM_WORDS <= 2^16` (D1). -/
  memWords : Nat
  /-- `FB_WIDTH`, OPEN (D2). -/
  fbWidth : Nat
  /-- `FB_HEIGHT`, OPEN (D2). -/
  fbHeight : Nat
  /-- `BMP_RES`: absent, or a finite byte sequence (10_state.md R32). -/
  bmpRes : Option (List Byte)
  /-- `GLYPH` as a finite table (49_draw_bitmap_glyph.md R254); a code with no entry is the provider's `failure`. -/
  glyphs : List (Word × List Sample)
  /-- `OPC`, `REGENC`, `FNID`, `VARG`. -/
  tables : Tables
deriving DecidableEq, Repr

/-- The side conditions of 00_scope.md R5: `1 <= MEM_WORDS <= 2^16` and injective tables. -/
abbrev Config.wf (c : Config) : Prop := 1 ≤ c.memWords ∧ c.memWords ≤ 65536 ∧ c.tables.wf

end Sys2Proof
end

