-- ==== Sys2Proof/WellFormed.lean ====
section
/-! DEFINITION. When an instruction is one the decoder can produce: each argument word carries its own classification. -/

namespace Sys2Proof

/-- An operand is well formed when its classification is `reg` of its raw word (30_encoding.md R87). -/
abbrev Operand.wf (T : Tables) (o : Operand) : Prop := o.reg = T.regOf o.raw

/-- An instruction is well formed when each of its operands is: "Every argument word of every instruction is
classified, whether or not the instruction uses the classification" (30_encoding.md R87). -/
abbrev Instr.wf (T : Tables) (i : Instr) : Prop := ∀ o ∈ i.operands, o.wf T

end Sys2Proof
end

