-- ==== Sys2Proof/Decode.lean ====
section
/-! DEFINITION. The decided tables, the Opcode Decoder, and after it the encoder (30_encoding.md). -/

namespace Sys2Proof

/-- `OPC`: the opcode of a tag byte, `none` for a tag with no entry. -/
def Tables.opcodeOf (T : Tables) (tag : Byte) : Option Opcode := T.opc.lookup tag

/-- The tag byte of an opcode: `OPC` read the other way (0 for an opcode the table lacks, which `Tables.wf` excludes). -/
def Tables.tagOf (T : Tables) (op : Opcode) : Byte :=
  match T.opc.find? (fun p => p.2 == op) with
  | some p => p.1
  | none => 0

/-- `FNID`: the draw function of an identifier, or `none`. -/
def Tables.fnOf (T : Tables) (a : Word) : Option DrawFn := T.fnid.lookup a

/-- `lo8(w) = w[7:0]` (00_scope.md R7). -/
def lo8 (w : Word) : Byte := w.extractLsb' 0 8

/-- The high byte `w[15:8]` (00_scope.md R6). -/
def hi8 (w : Word) : Byte := w.extractLsb' 8 8

/-- The word `hi ++ lo` (00_scope.md R6). -/
def wordOf (lo hi : Byte) : Word := hi ++ lo

/-- Little-endian words of a byte sequence (20_memory.md R52); an odd trailing byte becomes the low byte of a last word
whose high byte is 0 (70_reset_and_hazards.md R305). -/
def wordsOfBytes : List Byte → List Word
  | [] => []
  | [b] => [wordOf b 0]
  | lo :: hi :: bs => wordOf lo hi :: wordsOfBytes bs

/-- The decided `OPC` (30_encoding.md R83, D5). -/
def decidedOpc : List (Byte × Opcode) :=
  [(0x00, .nop), (0x01, .mov), (0x02, .add), (0x03, .sub), (0x04, .mul), (0x05, .div), (0x06, .inc), (0x07, .load),
   (0x08, .store), (0x09, .jmp), (0x0A, .cmp), (0x0B, .je), (0x0C, .jne), (0x0D, .call), (0xFF, .hlt)]

/-- The decided `REGENC`: the encoding of the register with storage index `i` is `0xFF00 + i` (10_state.md R21, D4). -/
def decidedRegenc : List (Word × Reg) :=
  [(0xFF00, .gen 0), (0xFF01, .gen 1), (0xFF02, .gen 2), (0xFF03, .gen 3), (0xFF04, .gen 4), (0xFF05, .gen 5),
   (0xFF06, .gen 6), (0xFF07, .gen 7),
   (0xFF08, .vid 0), (0xFF09, .vid 1), (0xFF0A, .vid 2), (0xFF0B, .vid 3), (0xFF0C, .vid 4), (0xFF0D, .vid 5),
   (0xFF0E, .vid 6), (0xFF0F, .vid 7), (0xFF10, .vid 8), (0xFF11, .vid 9), (0xFF12, .vid 10), (0xFF13, .vid 11),
   (0xFF14, .vid 12), (0xFF15, .vid 13), (0xFF16, .vid 14), (0xFF17, .vid 15),
   (0xFF18, .k0)]

/-- The decided `FNID` (45_call.md R176, D18). -/
def decidedFnid : List (Word × DrawFn) :=
  [(0, .clearScreen), (1, .fillScreen), (2, .drawLine), (3, .drawBmp), (4, .fillRect), (5, .fillQuad),
   (6, .drawCharacter)]

/-- The decided `VARG` (45_call.md R177, D19). -/
def decidedVarg : VArg :=
  { red := 0, green := 1, blue := 2, p1x := 3, p1y := 4, p2x := 5, p2y := 6, p3x := 7, p3y := 8, p4x := 9, p4y := 10,
    scalar := 11, char := 12 }

/-- The four tables with the values this spec decides: the defaults of 00_scope.md R5. -/
def Tables.decided : Tables :=
  { opc := decidedOpc, regenc := decidedRegenc, fnid := decidedFnid, varg := decidedVarg }

/-- `ARITY`: the argument count of an opcode (30_encoding.md R84). -/
def Opcode.arity : Opcode → Nat
  | .nop | .hlt => 0
  | .inc | .jmp | .je | .jne | .call => 1
  | .mov | .add | .sub | .mul | .div | .load | .store | .cmp => 2

/-- Why the decoder gives no instruction. -/
inductive DecodeError where
  /-- No tag of `OPC`: the fallback `invalid` (30_encoding.md R91). Step runs `execInvalid`. -/
  | unknownOpcode (tag : Byte)
  /-- Word `slot` of the instruction (0 the opcode word, 1 and 2 the arguments) is not there to read
  (40_step_cycle.md R111, R112). Step makes it `FetchBounds` or `OperandBounds`. -/
  | missing (slot : Nat)
deriving DecidableEq, Repr

/-- What the decoder answers: an instruction and the words after it, or the reason there is none. -/
abbrev Decoded := Except DecodeError (Instr × List Word)

/-- Classification of an argument word (30_encoding.md R87): at the operand word alone, not the opcode, not the slot. -/
def classify (T : Tables) (a : Word) : Operand := { raw := a, reg := T.regOf a }

/-- Format F0: no argument word (30_encoding.md R80). -/
def formatF0 (i : Instr) (ws : List Word) : Decoded := .ok (i, ws)

/-- Format F1: one argument word (30_encoding.md R80, R86). -/
def formatF1 (T : Tables) (mk : Operand → Instr) : List Word → Decoded
  | [] => .error (.missing 1)
  | a :: ws => .ok (mk (classify T a), ws)

/-- Format F2: two argument words, `arg1` read before `arg2` (30_encoding.md R80, R86). -/
def formatF2 (T : Tables) (mk : Operand → Operand → Instr) : List Word → Decoded
  | [] => .error (.missing 1)
  | [_] => .error (.missing 2)
  | a :: b :: ws => .ok (mk (classify T a) (classify T b), ws)

/-- The arguments of an opcode, read in the opcode's format (30_encoding.md R83). -/
def decodeArgs (T : Tables) (op : Opcode) (ws : List Word) : Decoded :=
  match op with
  | .nop => formatF0 .nop ws
  | .mov => formatF2 T .mov ws
  | .add => formatF2 T .add ws
  | .sub => formatF2 T .sub ws
  | .mul => formatF2 T .mul ws
  | .div => formatF2 T .div ws
  | .inc => formatF1 T .inc ws
  | .load => formatF2 T .load ws
  | .store => formatF2 T .store ws
  | .jmp => formatF1 T .jmp ws
  | .cmp => formatF2 T .cmp ws
  | .je => formatF1 T .je ws
  | .jne => formatF1 T .jne ws
  | .call => formatF1 T .call ws
  | .hlt => formatF0 .hlt ws

/-- The Opcode Decoder (30_encoding.md R81, R82): the low byte of the first word selects the opcode, the high byte is
ignored, the opcode alone fixes how many argument words are read. Total on any words. -/
def decode (T : Tables) : List Word → Decoded
  | [] => .error (.missing 0)
  | w :: ws =>
    match T.opcodeOf (lo8 w) with
    | none => .error (.unknownOpcode (lo8 w))
    | some op => decodeArgs T op ws

/-- The decoder on a byte sequence laid out as the program image is (20_memory.md R52). -/
def decodeBytes (T : Tables) (bs : List Byte) : Decoded := decode T (wordsOfBytes bs)

/-- The opcode word an assembler emits: `0x00 ++ tag` (30_encoding.md R94). -/
def opcodeWord (T : Tables) (op : Opcode) : Word := wordOf (T.tagOf op) 0

/-- The encoder: the words of an instruction, the opcode word and then the arguments (30_encoding.md R94). -/
def encode (T : Tables) (i : Instr) : List Word := opcodeWord T i.opcode :: i.operands.map Operand.raw

/-- The instruction the decoder reads from the bits `w`, the first word the least significant, under the decided
tables; every bit from `nbits` up is 0. The longest instruction has three words, six bytes. -/
def decodeTableWord (nbits w : Nat) : Option Instr :=
  match decodeBytes Tables.decided ((List.range 6).map fun k => BitVec.ofNat 8 (w % 2 ^ nbits / 256 ^ k)) with
  | .ok (i, _) => some i
  | .error _ => none

end Sys2Proof
end

