-- ==== Sys2Proof/Machine/Launch.lean ====
section
/-! DEFINITION. The sizes derived from a configuration, and the configuration `State.reset` starts with (log
entry 3). Every statement about reset is made of `State.resetOf c` for every configuration `c`. -/

namespace Sys2Proof

/-- `CANVAS_W = floor(FB_WIDTH / 2)` (00_scope.md R5, D2). -/
def Config.canvasW (c : Config) : Nat := c.fbWidth / 2

/-- `CANVAS_H = floor(FB_HEIGHT / 2)` (00_scope.md R5, D2). -/
def Config.canvasH (c : Config) : Nat := c.fbHeight / 2

/-- `VBUF_LEN = CANVAS_W * CANVAS_H` exactly (00_scope.md R5, D2). -/
def Config.vbufLen (c : Config) : Nat := c.canvasW * c.canvasH

/-- `GLYPH(ch)`: the samples of a character code, or `none` for the provider's failure (49_draw_bitmap_glyph.md R254). -/
def Config.glyph (c : Config) (ch : Word) : Option (List Sample) := c.glyphs.lookup ch

end Sys2Proof

namespace Sys2Proof.Machine

/-- The launch configuration. DESIGN CHOICE (log entry 3, unsafe): the largest memory R5 allows, the 16 by 16 canvas of
95_test_vectors.md P4 and P5, and no resource, since the host supplies them after reset (70_reset_and_hazards.md
R302). -/
def launchConfig : Config :=
  { memWords := 65536
    fbWidth := 32
    fbHeight := 32
    bmpRes := none
    glyphs := []
    tables := Tables.decided }

end Sys2Proof.Machine
end

