-- ==== Sys2Proof/Machine/State.lean ====
section
/-! DEFINITION. The state of the machine as plain data, the reasons a step can stop, and the state after reset. -/

namespace Sys2Proof.Machine

/-- `run_state` (10_state.md R27). -/
inductive RunState where
  /-- A step executes an instruction. -/
  | running
  /-- Entered by `hlt`; absorbing. -/
  | halted
  /-- Entered by a fatal error; absorbing. -/
  | fatal
deriving DecidableEq, Repr

/-- `fault_cause` (60_exceptions.md R275). -/
inductive FatalCause where
  | fetchBounds
  | operandBounds
  | dataBounds
  | pcOverflow
deriving DecidableEq, Repr

/-- The fatal record `(fault_cause, fault_info)` (10_state.md R28); `info` is the exact out-of-range index. -/
structure FatalRecord where
  cause : FatalCause
  info : Nat
deriving DecidableEq, Repr

/-- A report code (60_exceptions.md R271). -/
inductive Report where
  | unknownOpcode
  | badRegister
  | readOnlyRegister
  | unknownFunction
  | divideByZero
  | resourceError
deriving DecidableEq, Repr

/-- The `outcome` of a step result (10_state.md R36). -/
inductive StepOutcome where
  /-- The program counter moved by `len` words. -/
  | advanced (len : Nat)
  /-- A taken jump set the program counter. -/
  | jumped (target : Word)
  | halted
  | fatal (cause : FatalCause) (info : Nat)
  /-- The step was requested in `HALTED` or `FATAL` and did nothing. -/
  | idle
deriving DecidableEq, Repr

/-- The step result (10_state.md R36, 40_step_cycle.md R116). -/
structure StepResult where
  outcome : StepOutcome
  report : Option Report
deriving DecidableEq, Repr

/-- A Color, "an RGBA quadruple of bytes" (10_state.md R30). -/
structure Color where
  r : Byte
  g : Byte
  b : Byte
  a : Byte
deriving DecidableEq, Repr

/-- Memory as (byte address, byte) pairs: word `i` is bytes `2i` (low) and `2i + 1` (high), the order of the program
image (20_memory.md R52; log entry 1). An address that is not listed reads 0 (10_state.md R29, R40). -/
abbrev Memory := List Host.Cell

/-- The canonical form: addresses strictly rising, and no entry equal to what an unlisted address reads as. -/
abbrev Memory.wf (m : Memory) : Prop := m.Pairwise (fun c d => c.1 < d.1) ∧ ∀ c ∈ m, c.2 ≠ 0

/-- The register file: 25 words, one per storage index (10_state.md R21). -/
abbrev RegFile := Vector Word 25

/-- The video buffer: a sequence of Colors, cell `y * CANVAS_W + x` the pixel `(x, y)` (10_state.md R31). -/
abbrev VBuf := List Color

/-- The whole state (10_state.md R20 to R31), with the configuration it was launched with (log entry 4) and the result
of the last step (log entry 6). -/
structure State where
  /-- The configuration (00_scope.md R5); no step changes it. -/
  cfg : Config
  /-- R0 to R7, V0 to V15, K0. -/
  regs : RegFile
  /-- The program counter, a word index (10_state.md R25). -/
  pc : Word
  /-- The flags word (10_state.md R26). -/
  flags : Word
  /-- `run_state` (10_state.md R27). -/
  run : RunState
  /-- The fatal record, meaningful only while `run = fatal` (10_state.md R28). -/
  fatal : FatalRecord
  /-- `MEM` (10_state.md R29). -/
  mem : Memory
  /-- `VBUF` (10_state.md R31). -/
  vbuf : VBuf
  /-- The step result of the last step request (10_state.md R36); no instruction reads it. -/
  result : StepResult
deriving DecidableEq, Repr

/-- Why a step stops the model. NO constructor: nobody raises a fault. Every abnormal event of this machine is a report
or the FATAL run state, whose entry the spec describes in full (60_exceptions.md R274), so it is a next state whose
`run` is `fatal`, and Safety.lean counts it as a failure (log entry 5: safe, it hides no state). -/
inductive Fault
deriving DecidableEq, Repr

/-- Why an instruction has no meaning. -/
inductive Refusal where
  /-- Raised by an arm of `exec` for an instruction that has no meaning yet; safe. No arm raises it. -/
  | notModelled (mnemonic : String)
deriving DecidableEq, Repr

/-- The machine with configuration `c` right after reset (10_state.md R40). The fatal record is unspecified there
(DESIGN CHOICE, log entry 7), and the step result is `Idle`, none having been requested (DESIGN CHOICE, log entry 6). -/
def State.resetOf (c : Config) : State :=
  { cfg := c
    regs := Vector.replicate 25 0
    pc := 0
    flags := 0
    run := .running
    fatal := { cause := .fetchBounds, info := 0 }
    mem := []
    vbuf := List.replicate c.vbufLen { r := 0, g := 0, b := 0, a := 0 }
    result := { outcome := .idle, report := none } }

/-- The machine right after reset, with the launch configuration (log entry 3). -/
def State.reset : State := State.resetOf launchConfig

end Sys2Proof.Machine
end

