-- ==== Sys2Proof/Machine/Ops.lean ====
section
/-! DEFINITION. The named operations over registers, memory and the program counter, entering the FATAL state (the one
abnormal entry this machine has), and fetching. -/

namespace Sys2Proof.Machine

/-- What every meaning and `step` answer. -/
abbrev Out := Host.Outcome State Fault Refusal

/-! ### Numbers of the interface -/

/-- The storage index of a register (10_state.md R21). -/
def regIndex : Reg → Fin 25
  | .gen i => ⟨i.val, by omega⟩
  | .vid i => ⟨8 + i.val, by omega⟩
  | .k0 => 24

/-- The code of a report (60_exceptions.md R271). -/
def Report.code : Report → Nat
  | .unknownOpcode => 1
  | .badRegister => 2
  | .readOnlyRegister => 3
  | .unknownFunction => 4
  | .divideByZero => 5
  | .resourceError => 6

/-- The code of a fatal cause (60_exceptions.md R275). -/
def FatalCause.code : FatalCause → Nat
  | .fetchBounds => 1
  | .operandBounds => 2
  | .dataBounds => 3
  | .pcOverflow => 4

/-! ### Registers -/

/-- `x[r]` (00_scope.md R8). -/
def State.get (s : State) (r : Reg) : Word := s.regs[regIndex r]

/-- `x[r] <- v`, "suppressed for `K0`" (00_scope.md R8, 10_state.md R24). -/
def State.setReg (s : State) (r : Reg) (v : Word) : State :=
  if r = .k0 then s else { s with regs := s.regs.set (regIndex r) v }

/-! ### Memory -/

/-- The byte at a byte address; an unlisted one is 0 (10_state.md R40). -/
def Memory.readByte : Memory → Nat → Byte
  | [], _ => 0
  | (k, v) :: m, a => if k = a then v else Memory.readByte m a

/-- Writing one byte, keeping the canonical form: writing 0 removes the entry. -/
def Memory.writeByte : Memory → Nat → Byte → Memory
  | [], a, b => if b = 0 then [] else [(a, b)]
  | (k, v) :: m, a, b =>
    if a < k then (if b = 0 then (k, v) :: m else (a, b) :: (k, v) :: m)
    else if a = k then (if b = 0 then m else (a, b) :: m)
    else (k, v) :: Memory.writeByte m a b

/-- The word at a word index: `MEM[i] = b[2i + 1] ++ b[2i]` (20_memory.md R52). -/
def Memory.readWord (m : Memory) (i : Nat) : Word := wordOf (m.readByte (2 * i)) (m.readByte (2 * i + 1))

/-- `MEM[i] <- v`. -/
def Memory.writeWord (m : Memory) (i : Nat) (v : Word) : Memory :=
  (m.writeByte (2 * i) (lo8 v)).writeByte (2 * i + 1) (hi8 v)

/-- `MemRead(i, 1)` (20_memory.md R56): an exact index, never wrapped; outside memory, the fatal cause of the reader. -/
def State.memRead (s : State) (cause : FatalCause) (i : Nat) : Except FatalRecord Word :=
  if s.cfg.memWords ≤ i then .error { cause := cause, info := i } else .ok (s.mem.readWord i)

/-- `MemWrite(i, 1, v)` (20_memory.md R56). -/
def State.memWrite (s : State) (i : Nat) (v : Word) : Except FatalRecord State :=
  if s.cfg.memWords ≤ i then .error { cause := .dataBounds, info := i }
  else .ok { s with mem := s.mem.writeWord i v }

/-! ### Ending a step -/

/-- `raise Fatal(cause, info)` (60_exceptions.md R274): `run_state <- FATAL`, the fatal record is written, the step
ends; nothing else changes. `rep` is the report the step has already emitted, if any (R277; log entry 14). There is no
return from it: only reset leaves FATAL (70_reset_and_hazards.md R300). -/
def State.raiseFatal (s : State) (f : FatalRecord) (rep : Option Report) : State :=
  { s with run := .fatal, fatal := f, result := { outcome := .fatal f.cause f.info, report := rep } }

/-- `advance(L)` (40_step_cycle.md R114): the counter does not wrap; past 65535 it is `Fatal(PcOverflow, pc + L)`. -/
def State.advance (s : State) (len : Nat) (rep : Option Report) : State :=
  if 65535 < s.pc.toNat + len then
    s.raiseFatal { cause := .pcOverflow, info := s.pc.toNat + len } rep
  else
    { s with pc := BitVec.ofNat 16 (s.pc.toNat + len), result := { outcome := .advanced len, report := rep } }

/-- A taken jump (40_step_cycle.md R115): the counter is the target, unchecked, and no default advance follows. -/
def State.jump (s : State) (target : Word) : State :=
  { s with pc := target, result := { outcome := .jumped target, report := none } }

/-- `run_state <- HALTED`, the counter stays (44_halt_nop.md R165). -/
def State.halt (s : State) : State :=
  { s with run := .halted, result := { outcome := .halted, report := none } }

/-- A step request outside RUNNING (40_step_cycle.md R117): `Idle`, nothing changes. -/
def State.idle (s : State) : State := { s with result := { outcome := .idle, report := none } }

/-- An instruction that does nothing but report and take the default advance (30_encoding.md R90). -/
def State.skip (s : State) (len : Nat) (rep : Report) : State := s.advance len (some rep)

/-! ### Fetching -/

/-- The words at `i`, `i + 1`, ... that lie inside memory, at most `n`. -/
def State.wordsFrom (s : State) : Nat → Nat → List Word
  | 0, _ => []
  | n + 1, i => if s.cfg.memWords ≤ i then [] else s.mem.readWord i :: State.wordsFrom s n (i + 1)

/-- The words an instruction at `pc` may have (30_encoding.md R80): at most three, exact indices, up to the end of
memory. Reads have no effect (20_memory.md R54), so those the arity does not call for are unobservable (log entry 16). -/
def State.window (s : State) : List Word := s.wordsFrom 3 s.pc.toNat

/-- The fatal record of a fetch whose word `slot` lies outside memory (40_step_cycle.md R111, R112). -/
def State.missingWord (s : State) (slot : Nat) : FatalRecord :=
  { cause := if slot = 0 then .fetchBounds else .operandBounds, info := s.pc.toNat + slot }

/-- Memory with the words `ws` stored from word index `i` up, those inside memory. -/
def State.placeWords (s : State) (i : Nat) : List Word → State
  | [] => s
  | w :: ws =>
    if s.cfg.memWords ≤ i then s else State.placeWords { s with mem := s.mem.writeWord i w } (i + 1) ws

end Sys2Proof.Machine
end

