-- ==== Sys2Proof/Machine/Operands.lean ====
section
/-! DEFINITION. Operand forms: register slots, value slots, the effective address, the arguments of a draw function. -/

namespace Sys2Proof.Machine

/-- `trunc16(n) = n mod 2^16` for any integer (00_scope.md R7). -/
def trunc16 (n : Int) : Word := BitVec.ofInt 16 n

/-- A register slot that is read only: `BadRegister` when it names no register; K0 is allowed (30_encoding.md R90). -/
def srcSlot (a : Operand) : Except Report Reg :=
  match a.reg with
  | none => .error .badRegister
  | some r => .ok r

/-- A destination: `BadRegister` when it names no register, `ReadOnlyRegister` when it names K0 (30_encoding.md R90). -/
def destSlot (a : Operand) : Except Report Reg :=
  match a.reg with
  | none => .error .badRegister
  | some r => if r = .k0 then .error .readOnlyRegister else .ok r

/-- A value slot: "the raw argument word, whatever its classification" (30_encoding.md R88). -/
def valueSlot (a : Operand) : Word := a.raw

/-- The test of a register slot comes before everything else of the execution (30_encoding.md R90, 40_step_cycle.md
R113): a failing slot makes the instruction a reported no-op of its normal length. -/
def withSlot (slot : Except Report Reg) (len : Nat) (s : State) (k : Reg → State) : State :=
  match slot with
  | .error rep => s.skip len rep
  | .ok r => k r

/-- `EA(addr) = floor(addr / WORD_BYTES)` (42_load_store.md R140). -/
def effectiveIndex (addr : Word) : Nat := addr.toNat / 2

/-- A Point, "a signed 2D integer coordinate pair" (00_scope.md R12), unbounded (46_draw_basic.md R205). -/
structure Point where
  x : Int
  y : Int
deriving DecidableEq, Repr

/-- The word of a video-argument register. -/
def State.video (s : State) (i : Fin 16) : Word := s.get (.vid i)

/-- `zext` of a video-argument register (45_call.md R179): coordinates and scalars are unsigned. -/
def State.videoInt (s : State) (i : Fin 16) : Int := ((s.video i).toNat : Int)

/-- The gathered color: the low byte of each channel register, alpha opaque (45_call.md R179). -/
def State.argColor (s : State) : Color :=
  let v := s.cfg.tables.varg
  { r := lo8 (s.video v.red), g := lo8 (s.video v.green), b := lo8 (s.video v.blue), a := 255 }

/-- P1 (45_call.md R177, R179). -/
def State.argP1 (s : State) : Point :=
  { x := s.videoInt s.cfg.tables.varg.p1x, y := s.videoInt s.cfg.tables.varg.p1y }

/-- P2 (45_call.md R177, R179). -/
def State.argP2 (s : State) : Point :=
  { x := s.videoInt s.cfg.tables.varg.p2x, y := s.videoInt s.cfg.tables.varg.p2y }

/-- P3 (45_call.md R177, R179). -/
def State.argP3 (s : State) : Point :=
  { x := s.videoInt s.cfg.tables.varg.p3x, y := s.videoInt s.cfg.tables.varg.p3y }

/-- P4 (45_call.md R177, R179). -/
def State.argP4 (s : State) : Point :=
  { x := s.videoInt s.cfg.tables.varg.p4x, y := s.videoInt s.cfg.tables.varg.p4y }

/-- The scalar: thickness or size, `0 .. 65535` (45_call.md R179). -/
def State.argScalar (s : State) : Nat := (s.video s.cfg.tables.varg.scalar).toNat

/-- The character code, the word unchanged (45_call.md R179). -/
def State.argChar (s : State) : Word := s.video s.cfg.tables.varg.char

end Sys2Proof.Machine
end

