-- ==== Sys2Proof/Machine/Flags.lean ====
section
/-! DEFINITION. The flags word: one flag, Z (10_state.md R26). -/

namespace Sys2Proof.Machine

/-- `Z_BIT` (00_scope.md R5, D17). -/
def zBit : Nat := 0

/-- `Z = FLAGS[Z_BIT]`. -/
def flagZ (flags : Word) : Bool := flags.getLsbD zBit

/-- `FLAGS[Z_BIT] <- b`, every other bit kept (43_compare_jump.md R150; log entry 19). -/
def setFlagZ (flags : Word) (b : Bool) : Word :=
  if b then flags ||| (1#16 <<< zBit) else flags &&& ~~~(1#16 <<< zBit)

/-- Z of a state. -/
def State.z (s : State) : Bool := flagZ s.flags

/-- The flag rule of `cmp`, the only one: Z is the equality of two words (43_compare_jump.md R150). -/
def State.compare (s : State) (x y : Word) : State := { s with flags := setFlagZ s.flags (x == y) }

end Sys2Proof.Machine
end

