-- ==== Sys2Proof/Machine/Draw.lean ====
section
/-! DEFINITION. Draw Engine basics (46_draw_basic.md): the clipped pixel write, painting a set of canvas cells,
clear_screen, fill_screen, fill_rect. -/

namespace Sys2Proof.Machine

/-- "opaque black" (10_state.md R30). -/
def opaqueBlack : Color := { r := 0, g := 0, b := 0, a := 255 }

/-- `PutPixel(x, y, c)` on a canvas `W` by `H` (46_draw_basic.md R200): clipped by coordinate, silently. -/
def putPixel (W H : Nat) (v : VBuf) (x y : Int) (c : Color) : VBuf :=
  if 0 ≤ x ∧ x < W ∧ 0 ≤ y ∧ y < H then v.set (y * W + x).toNat c else v

/-- What cell `i` holds after a function that paints the canvas point `(x, y)` with `f x y`, and leaves it where
`f x y = none`: the set form of the draw rules (40_step_cycle.md R120; log entry 12). -/
def paintCell (W H : Nat) (f : Int → Int → Option Color) (i : Nat) (old : Color) : Color :=
  if i < W * H then (f (i % W : Nat) (i / W : Nat)).getD old else old

/-- Every cell of the buffer, painted. -/
def paint (W H : Nat) (f : Int → Int → Option Color) (v : VBuf) : VBuf :=
  v.zipIdx.map fun p => paintCell W H f p.2 p.1

/-- clear_screen(): "Sets every buffer element to opaque black" (46_draw_basic.md R201). -/
def clearScreen (v : VBuf) : VBuf := v.map fun _ => opaqueBlack

/-- fill_screen(color): the R, G, B of every element, "preserving existing alpha" (46_draw_basic.md R202). -/
def fillScreen (color : Color) (v : VBuf) : VBuf := v.map fun old => { color with a := old.a }

/-- The extent of fill_rect on one axis: `c - floor(size / 2) .. c - floor(size / 2) + size - 1` (46_draw_basic.md
R203). -/
def inExtent (c : Int) (size : Nat) (z : Int) : Bool :=
  decide (c - (size / 2 : Nat) ≤ z) && decide (z ≤ c - (size / 2 : Nat) + size - 1)

/-- fill_rect(color, center, size) in its set form (46_draw_basic.md R203, R204). -/
def fillRect (W H : Nat) (color : Color) (center : Point) (size : Nat) (v : VBuf) : VBuf :=
  paint W H (fun x y => if inExtent center.x size x && inExtent center.y size y then some color else none) v

end Sys2Proof.Machine
end

