-- ==== Sys2Proof/Machine/DrawImage.lean ====
section
/-! DEFINITION. The bitmap blitter and the glyph compositor (49_draw_bitmap_glyph.md). -/

namespace Sys2Proof.Machine

/-- What ParseBmp returns of a valid resource (49_draw_bitmap_glyph.md R247). -/
structure BmpHeader where
  off : Nat
  w : Nat
  h : Nat
  pitch : Nat
deriving DecidableEq, Repr

/-- Byte `k` of the resource; validation keeps every read inside it (log entry 20). -/
def resByte (res : List Byte) (k : Nat) : Byte := res.getD k 0

/-- Two bytes, little-endian (49_draw_bitmap_glyph.md R246). -/
def resLe16 (res : List Byte) (k : Nat) : BitVec 16 := resByte res (k + 1) ++ resByte res k

/-- Four bytes, little-endian (49_draw_bitmap_glyph.md R246). -/
def resLe32 (res : List Byte) (k : Nat) : BitVec 32 :=
  resByte res (k + 3) ++ resByte res (k + 2) ++ resByte res (k + 1) ++ resByte res k

/-- `pitch = ceil(width * 3 / 4) * 4` (49_draw_bitmap_glyph.md R248). -/
def bmpPitch (w : Nat) : Nat := (3 * w + 3) / 4 * 4

/-- ParseBmp(res): validation before any write (49_draw_bitmap_glyph.md R246, R247); `none` is its failure. -/
def parseBmp (res : List Byte) : Option BmpHeader :=
  if res.length < 30 then none
  else
    let off := (resLe32 res 10).toNat
    let w := (resLe32 res 18).toInt
    let h := (resLe32 res 22).toInt
    if (resLe16 res 28).toNat ≠ 24 then none
    else if w < 0 ∨ h < 0 then none
    else
      let pitch := bmpPitch w.toNat
      if 0 < w ∧ 0 < h ∧ res.length < off + (h.toNat - 1) * pitch + 3 * w.toNat then none
      else some { off := off, w := w.toNat, h := h.toNat, pitch := pitch }

/-- The Color of file pixel `(x, y)`, row 0 the bottom one: the bytes B, G, R (49_draw_bitmap_glyph.md R245). -/
def bmpPixel (res : List Byte) (hdr : BmpHeader) (x y : Nat) : Color :=
  let base := hdr.off + y * hdr.pitch + 3 * x
  { r := resByte res (base + 2), g := resByte res (base + 1), b := resByte res base, a := 255 }

/-- The pixel writes of draw_bmp in their set form: file row `y` lands on canvas row `pos.y + (h - 1 - y)`
(49_draw_bitmap_glyph.md R245; log entry 12). -/
def blitBmp (W H : Nat) (res : List Byte) (hdr : BmpHeader) (pos : Point) (v : VBuf) : VBuf :=
  paint W H (fun cx cy =>
    if pos.x ≤ cx ∧ cx < pos.x + hdr.w ∧ pos.y ≤ cy ∧ cy < pos.y + hdr.h then
      some (bmpPixel res hdr (cx - pos.x).toNat (hdr.h - 1 - (cy - pos.y).toNat))
    else none) v

/-- draw_bmp(res, position) (49_draw_bitmap_glyph.md R245): a failing resource writes nothing. -/
def drawBmp (W H : Nat) (res : Option (List Byte)) (pos : Point) (v : VBuf) : Except Report VBuf :=
  match res with
  | none => .error .resourceError
  | some bytes =>
    match parseBmp bytes with
    | none => .error .resourceError
    | some hdr => .ok (blitBmp W H bytes hdr pos v)

/-- One channel scaled by a coverage: `floor(ch * cov / 255)` (49_draw_bitmap_glyph.md R255). -/
def scaleChannel (ch cov : Byte) : Byte := BitVec.ofNat 8 (ch.toNat * cov.toNat / 255)

/-- Composite(color, cov) (49_draw_bitmap_glyph.md R255). -/
def composite (c : Color) (cov : Byte) : Color :=
  { r := scaleChannel c.r cov, g := scaleChannel c.g cov, b := scaleChannel c.b cov, a := 255 }

/-- The pixel writes of draw_character, in list order (49_draw_bitmap_glyph.md R253). -/
def blitGlyph (W H : Nat) (g : List Sample) (pos : Point) (color : Color) (v : VBuf) : VBuf :=
  g.foldl (fun v d => putPixel W H v (pos.x + d.dx) (pos.y + d.dy) (composite color d.cov)) v

/-- draw_character(character, position, color) (49_draw_bitmap_glyph.md R253), `g` the provider's answer. -/
def drawCharacter (W H : Nat) (g : Option (List Sample)) (pos : Point) (color : Color) (v : VBuf) :
    Except Report VBuf :=
  match g with
  | none => .error .resourceError
  | some samples => .ok (blitGlyph W H samples pos color v)

end Sys2Proof.Machine
end

