-- ==== Sys2Proof/Machine/DrawLine.lean ====
section
/-! DEFINITION. The line rasterizer (47_draw_line.md). -/

namespace Sys2Proof.Machine

/-- The loop of Steps (47_draw_line.md R216) from `(x, y)` with error `err`: emit, stop at the end point, else both
tests with one `e2`. `n` bounds the iterations that follow the first (log entry 17). -/
def stepsFrom (dx dy sx sy : Int) (stop : Point) : Nat → Int → Int → Int → List Point
  | 0, x, y, _ => [{ x := x, y := y }]
  | n + 1, x, y, err =>
    { x := x, y := y } ::
      if x = stop.x ∧ y = stop.y then []
      else
        let e2 := 2 * err
        stepsFrom dx dy sx sy stop n
          (if dy ≤ e2 then x + sx else x)
          (if e2 ≤ dx then y + sy else y)
          (err + (if dy ≤ e2 then dy else 0) + (if e2 ≤ dx then dx else 0))

/-- Steps(start, end): the stepped pixels (47_draw_line.md R216), `max(|x1 - x0|, |y1 - y0|) + 1` of them. -/
def steps (p q : Point) : List Point :=
  let dx : Int := ((q.x - p.x).natAbs : Int)
  let dy : Int := -((q.y - p.y).natAbs : Int)
  stepsFrom dx dy (if p.x < q.x then 1 else -1) (if p.y < q.y then 1 else -1) q
    (max (q.x - p.x).natAbs (q.y - p.y).natAbs) p.x p.y (dx + dy)

/-- `(x, y)` lies in the disc of radius `r` stamped at `p` (47_draw_line.md R217). -/
def inDisc (r : Nat) (p : Point) (x y : Int) : Bool :=
  decide ((x - p.x) * (x - p.x) + (y - p.y) * (y - p.y) ≤ (r : Int) * r)

/-- draw_line(color, start, end, thickness) in its set form, `r = floor(t / 2)` (47_draw_line.md R215, R217, R218). -/
def drawLine (W H : Nat) (color : Color) (p q : Point) (t : Nat) (v : VBuf) : VBuf :=
  let ps := steps p q
  paint W H (fun x y => if ps.any (fun s => inDisc (t / 2) s x y) then some color else none) v

end Sys2Proof.Machine
end

