-- ==== Sys2Proof/Machine/DrawPoly.lean ====
section
/-! DEFINITION. Triangle and quadrilateral fill (48_draw_triangle_quad.md). -/

namespace Sys2Proof.Machine

/-- `D`, twice the signed area (48_draw_triangle_quad.md R231). -/
def baryD (p1 p2 p3 : Point) : Int :=
  (p2.y - p3.y) * (p1.x - p3.x) + (p3.x - p2.x) * (p1.y - p3.y)

/-- `a`, the numerator of w1 (48_draw_triangle_quad.md R231). -/
def baryA (p p2 p3 : Point) : Int :=
  (p2.y - p3.y) * (p.x - p3.x) + (p3.x - p2.x) * (p.y - p3.y)

/-- `b`, the numerator of w2 (48_draw_triangle_quad.md R231). -/
def baryB (p p1 p3 : Point) : Int :=
  (p3.y - p1.y) * (p.x - p3.x) + (p1.x - p3.x) * (p.y - p3.y)

/-- Inside(p, p1, p2, p3): "all three barycentric coordinates >= 0", by signs; a degenerate triangle has none inside
(48_draw_triangle_quad.md R231). -/
def insideTriangle (p p1 p2 p3 : Point) : Bool :=
  let D := baryD p1 p2 p3
  let a := baryA p p2 p3
  let b := baryB p p1 p3
  let c := D - a - b
  if D = 0 then false
  else if 0 < D then decide (0 ≤ a) && decide (0 ≤ b) && decide (0 ≤ c)
  else decide (a ≤ 0) && decide (b ≤ 0) && decide (c ≤ 0)

/-- fill_triangle(color, p1, p2, p3) in its set form (48_draw_triangle_quad.md R230, R232). -/
def fillTriangle (W H : Nat) (color : Color) (p1 p2 p3 : Point) (v : VBuf) : VBuf :=
  paint W H (fun x y => if insideTriangle { x := x, y := y } p1 p2 p3 then some color else none) v

/-- fill_quad(color, p1, p2, p3, p4): the triangles (p1, p2, p3) and then (p1, p3, p4) (48_draw_triangle_quad.md
R233). -/
def fillQuad (W H : Nat) (color : Color) (p1 p2 p3 p4 : Point) (v : VBuf) : VBuf :=
  fillTriangle W H color p1 p3 p4 (fillTriangle W H color p1 p2 p3 v)

end Sys2Proof.Machine
end

