-- ==== Sys2Proof/Machine/Call.lean ====
section
/-! DEFINITION. call and the draw dispatch (45_call.md). -/

namespace Sys2Proof.Machine

/-- Identifier 0 (45_call.md R180). -/
def runClearScreen (s : State) : Except Report VBuf := .ok (clearScreen s.vbuf)

/-- Identifier 1 (45_call.md R181). -/
def runFillScreen (s : State) : Except Report VBuf := .ok (fillScreen s.argColor s.vbuf)

/-- Identifier 2 (45_call.md R182). -/
def runDrawLine (s : State) : Except Report VBuf :=
  .ok (drawLine s.cfg.canvasW s.cfg.canvasH s.argColor s.argP1 s.argP2 s.argScalar s.vbuf)

/-- Identifier 3 (45_call.md R183). -/
def runDrawBmp (s : State) : Except Report VBuf :=
  drawBmp s.cfg.canvasW s.cfg.canvasH s.cfg.bmpRes s.argP1 s.vbuf

/-- Identifier 4 (45_call.md R184). -/
def runFillRect (s : State) : Except Report VBuf :=
  .ok (fillRect s.cfg.canvasW s.cfg.canvasH s.argColor s.argP1 s.argScalar s.vbuf)

/-- Identifier 5 (45_call.md R185). -/
def runFillQuad (s : State) : Except Report VBuf :=
  .ok (fillQuad s.cfg.canvasW s.cfg.canvasH s.argColor s.argP1 s.argP2 s.argP3 s.argP4 s.vbuf)

/-- Identifier 6 (45_call.md R186). -/
def runDrawCharacter (s : State) : Except Report VBuf :=
  drawCharacter s.cfg.canvasW s.cfg.canvasH (s.cfg.glyph s.argChar) s.argP1 s.argColor s.vbuf

/-- The draw function with its arguments gathered (45_call.md R175, R179): the new buffer, or the report of a failure
that wrote nothing. -/
def runDraw (f : DrawFn) (s : State) : Except Report VBuf :=
  match f with
  | .clearScreen => runClearScreen s
  | .fillScreen => runFillScreen s
  | .drawLine => runDrawLine s
  | .drawBmp => runDrawBmp s
  | .fillRect => runFillRect s
  | .fillQuad => runFillQuad s
  | .drawCharacter => runDrawCharacter s

/-- `call fn` (45_call.md R175, R178): advances by 2 in every case. -/
def execCall (a : Operand) (s : State) : Out :=
  .next (match s.cfg.tables.fnOf (valueSlot a) with
    | none => s.skip 2 .unknownFunction
    | some f =>
      match runDraw f s with
      | .error rep => s.skip 2 rep
      | .ok v => State.advance { s with vbuf := v } 2 none)

end Sys2Proof.Machine
end

