-- ==== Sys2Proof/Machine/CompareJump.lean ====
section
/-! DEFINITION. cmp, jmp, je, jne (43_compare_jump.md). -/

namespace Sys2Proof.Machine

/-- `cmp Rs, imm` (43_compare_jump.md R150): Z is the equality of the register and the raw word; K0 is allowed. -/
def execCmp (a b : Operand) (s : State) : Out :=
  .next (withSlot (srcSlot a) 3 s fun r => (s.compare (s.get r) (valueSlot b)).advance 3 none)

/-- `jmp target` (43_compare_jump.md R151): a word index, absolute, not checked here. -/
def execJmp (a : Operand) (s : State) : Out := .next (s.jump (valueSlot a))

/-- What `je` and `jne` share: the jump when the condition holds, else the default advance by 2. -/
def jumpIf (cond : Bool) (a : Operand) (s : State) : State :=
  if cond then s.jump (valueSlot a) else s.advance 2 none

/-- `je target` (43_compare_jump.md R152). -/
def execJe (a : Operand) (s : State) : Out := .next (jumpIf s.z a s)

/-- `jne target` (43_compare_jump.md R153). -/
def execJne (a : Operand) (s : State) : Out := .next (jumpIf (!s.z) a s)

end Sys2Proof.Machine
end

