-- ==== Sys2Proof/Machine/HaltNop.lean ====
section
/-! DEFINITION. hlt, nop and the decoder's fallback `invalid` (44_halt_nop.md). -/

namespace Sys2Proof.Machine

/-- `hlt` (44_halt_nop.md R165). -/
def execHlt (s : State) : Out := .next s.halt

/-- `nop` (44_halt_nop.md R166). -/
def execNop (s : State) : Out := .next (s.advance 1 none)

/-- `invalid`, any tag with no entry in `OPC` (44_halt_nop.md R167): a reported one-word no-op. -/
def execInvalid (s : State) : Out := .next (s.skip 1 .unknownOpcode)

end Sys2Proof.Machine
end

