-- ==== Sys2Proof/Machine/LoadStore.lean ====
section
/-! DEFINITION. load, store (42_load_store.md). -/

namespace Sys2Proof.Machine

/-- `load Rd, addr` (42_load_store.md R141): a failing slot makes no access; outside memory `Fatal(DataBounds, EA)`. -/
def execLoad (a b : Operand) (s : State) : Out :=
  .next (withSlot (destSlot a) 3 s fun d =>
    match s.memRead .dataBounds (effectiveIndex (valueSlot b)) with
    | .error f => s.raiseFatal f none
    | .ok v => (s.setReg d v).advance 3 none)

/-- `store addr, Rs` (42_load_store.md R142): the address comes first; K0 is allowed. -/
def execStore (a b : Operand) (s : State) : Out :=
  .next (withSlot (srcSlot b) 3 s fun r =>
    match s.memWrite (effectiveIndex (valueSlot a)) (s.get r) with
    | .error f => s.raiseFatal f none
    | .ok t => t.advance 3 none)

end Sys2Proof.Machine
end

