-- ==== Sys2Proof/Machine/MoveArith.lean ====
section
/-! DEFINITION. mov, add, sub, mul, div, inc (41_move_arith.md). -/

namespace Sys2Proof.Machine

/-- What the six share (41_move_arith.md R125): a destination register whose new value is a function of the old one,
unsigned wrapping arithmetic, no flag, no memory, the default advance. -/
def updateReg (a : Operand) (len : Nat) (f : Word → Word) (s : State) : State :=
  withSlot (destSlot a) len s fun d => (s.setReg d (f (s.get d))).advance len none

/-- `mov Rd, imm`: `x[d] <- arg2` (41_move_arith.md R126). -/
def execMov (a b : Operand) (s : State) : Out := .next (updateReg a 3 (fun _ => valueSlot b) s)

/-- `add Rd, imm`: `x[d] <- trunc16(x[d] + arg2)` (41_move_arith.md R127). -/
def execAdd (a b : Operand) (s : State) : Out :=
  .next (updateReg a 3 (fun x => trunc16 ((x.toNat : Int) + (valueSlot b).toNat)) s)

/-- `sub Rd, imm`: `x[d] <- trunc16(x[d] - arg2)` (41_move_arith.md R128). -/
def execSub (a b : Operand) (s : State) : Out :=
  .next (updateReg a 3 (fun x => trunc16 ((x.toNat : Int) - (valueSlot b).toNat)) s)

/-- `mul Rd, imm`: `x[d] <- trunc16(x[d] * arg2)` (41_move_arith.md R129). -/
def execMul (a b : Operand) (s : State) : Out :=
  .next (updateReg a 3 (fun x => trunc16 ((x.toNat : Int) * (valueSlot b).toNat)) s)

/-- `div Rd, imm`: `x[d] <- floor(x[d] / arg2)`; by 0 the write is skipped and `DivideByZero` reported, after the test
of the register slot (41_move_arith.md R130, 60_exceptions.md R277). -/
def execDiv (a b : Operand) (s : State) : Out :=
  .next (withSlot (destSlot a) 3 s fun d =>
    if valueSlot b = 0 then s.skip 3 .divideByZero
    else (s.setReg d (BitVec.ofNat 16 ((s.get d).toNat / (valueSlot b).toNat))).advance 3 none)

/-- `inc Rd`: `x[d] <- trunc16(x[d] + 1)` (41_move_arith.md R131). -/
def execInc (a : Operand) (s : State) : Out :=
  .next (updateReg a 2 (fun x => trunc16 ((x.toNat : Int) + 1)) s)

end Sys2Proof.Machine
end

