-- ==== Sys2Proof/Machine/Step.lean ====
section
/-! DEFINITION. One step (40_step_cycle.md R110), and placing an instruction where the next step fetches it. -/

namespace Sys2Proof.Machine

/-- The step cycle (40_step_cycle.md R110, 60_exceptions.md R277): outside RUNNING nothing is examined; then the fetch
bounds, the unknown opcode, and the instruction itself with its own advance. -/
def step (s : State) : Host.Outcome State Fault Refusal :=
  match s.run with
  | .halted => .next s.idle
  | .fatal => .next s.idle
  | .running =>
    match decode s.cfg.tables s.window with
    | .ok (i, _) => exec i s
    | .error (.missing slot) => .next (s.raiseFatal (s.missingWord slot) none)
    | .error (.unknownOpcode _) => execInvalid s

/-- `s` RUNNING, with the instruction whose bits are `w` (those from `nbits` up are 0, three words in all) stored at the
program counter. It stands for the loader (log entry 9). -/
def State.withFetchWord (s : State) (nbits w : Nat) : State :=
  State.placeWords { s with run := .running } s.pc.toNat
    ((List.range 3).map fun k => BitVec.ofNat 16 (w % 2 ^ nbits / 65536 ^ k))

end Sys2Proof.Machine
end

