-- ==== Sys2Proof/Machine/DrawLoops.lean ====
section
/-! DEFINITION. The draw functions as the loops the rules write out, every write a `putPixel` in the loops' order. The
machine runs the set forms of Draw.lean, DrawLine.lean, DrawPoly.lean and DrawImage.lean; that the two agree is stated
in Certificates/Slice0/Obligations.lean (log entry 12). -/

namespace Sys2Proof.Machine

/-- `for v in a .. a + n - 1`, in that order (00_scope.md R8). -/
def intRange (a : Int) (n : Nat) : List Int := (List.range n).map fun (k : Nat) => a + (k : Int)

/-- `for y in ys: for x in xs: body` over a buffer. -/
def forRows (ys xs : List Int) (body : VBuf → Int → Int → VBuf) (v : VBuf) : VBuf :=
  ys.foldl (fun v y => xs.foldl (fun v x => body v x y) v) v

/-- fill_rect as 46_draw_basic.md R203 writes it. -/
def fillRectLoop (W H : Nat) (color : Color) (center : Point) (size : Nat) (v : VBuf) : VBuf :=
  let x0 := center.x - (size / 2 : Nat)
  let y0 := center.y - (size / 2 : Nat)
  forRows (intRange y0 size) (intRange x0 size) (fun v x y => putPixel W H v x y color) v

/-- Stamp(sx, sy, t, color) as 47_draw_line.md R217 writes it. -/
def stampLoop (W H : Nat) (p : Point) (t : Nat) (color : Color) (v : VBuf) : VBuf :=
  let r : Int := (t / 2 : Nat)
  forRows (intRange (-t) (2 * t + 1)) (intRange (-t) (2 * t + 1))
    (fun v ox oy => if ox * ox + oy * oy ≤ r * r then putPixel W H v (p.x + ox) (p.y + oy) color else v) v

/-- draw_line as 47_draw_line.md R215 writes it. -/
def drawLineLoop (W H : Nat) (color : Color) (p q : Point) (t : Nat) (v : VBuf) : VBuf :=
  (steps p q).foldl (fun v s => stampLoop W H s t color v) v

/-- The least of three. -/
def min3 (a b c : Int) : Int := min a (min b c)

/-- The greatest of three. -/
def max3 (a b c : Int) : Int := max a (max b c)

/-- fill_triangle as 48_draw_triangle_quad.md R230 writes it: the bounding box, both extremes included. -/
def fillTriangleLoop (W H : Nat) (color : Color) (p1 p2 p3 : Point) (v : VBuf) : VBuf :=
  let xmin := min3 p1.x p2.x p3.x
  let xmax := max3 p1.x p2.x p3.x
  let ymin := min3 p1.y p2.y p3.y
  let ymax := max3 p1.y p2.y p3.y
  forRows (intRange ymin (ymax - ymin + 1).toNat) (intRange xmin (xmax - xmin + 1).toNat)
    (fun v x y => if insideTriangle { x := x, y := y } p1 p2 p3 then putPixel W H v x y color else v) v

/-- The pixel writes of draw_bmp as 49_draw_bitmap_glyph.md R245 writes them. -/
def blitBmpLoop (W H : Nat) (res : List Byte) (hdr : BmpHeader) (pos : Point) (v : VBuf) : VBuf :=
  forRows (intRange 0 hdr.h) (intRange 0 hdr.w)
    (fun v x y => putPixel W H v (pos.x + x) (pos.y + (hdr.h - 1 - y)) (bmpPixel res hdr x.toNat y.toNat)) v

end Sys2Proof.Machine
end

