-- ==== Sys2Proof/Machine/HostPort.lean ====
section
/-! DEFINITION. The host's side of the machine, each between two steps (10_state.md R37 to R39, 70_reset_and_hazards.md
R302 to R308): the loader, the keyboard, the resources, reset, the presentation read-out. -/

namespace Sys2Proof.Machine

/-- Words stored from word index `i` up, unchecked: the loop of load_image. -/
def Memory.fill (m : Memory) (i : Nat) : List Word → Memory
  | [] => m
  | w :: ws => Memory.fill (m.writeWord i w) (i + 1) ws

/-- load_image(b, n) (70_reset_and_hazards.md R304, R305): little-endian words from word 0, an odd last byte
zero-padded; an image of more than `MEM_WORDS` words is rejected whole. -/
def State.loadImage (s : State) (bytes : List Byte) : Option State :=
  let ws := wordsOfBytes bytes
  if s.cfg.memWords < ws.length then none else some { s with mem := s.mem.fill 0 ws }

/-- Reset and load (70_reset_and_hazards.md R302): `none` is a rejected image, the core never released from reset
(60_exceptions.md R288). -/
def State.boot (c : Config) (bytes : List Byte) : Option State := (State.resetOf c).loadImage bytes

/-- What the host may do to a running core between two steps (70_reset_and_hazards.md R306, R308). -/
inductive HostMove where
  /-- The keyboard writes any word to K0. -/
  | key (k : Word)
  /-- The resources change; none of these moves is the constant reading of R308 (log entry 11). -/
  | resources (bmp : Option (List Byte)) (glyphs : List (Word × List Sample))
  /-- Reset is asserted. -/
  | reset
deriving DecidableEq, Repr

/-- A host write of K0 (10_state.md R24, R37). -/
def State.writeKey (s : State) (k : Word) : State := { s with regs := s.regs.set (regIndex .k0) k }

/-- A host move. -/
def State.host (s : State) : HostMove → State
  | .key k => s.writeKey k
  | .resources bmp glyphs => { s with cfg := { s.cfg with bmpRes := bmp, glyphs := glyphs } }
  | .reset => State.resetOf s.cfg

/-- The presentation read-out: cells `0 .. VBUF_LEN - 1`, each as R, G, B, A (10_state.md R38). -/
def State.readout (s : State) : List Byte :=
  (s.vbuf.take s.cfg.vbufLen).flatMap fun c => [c.r, c.g, c.b, c.a]

end Sys2Proof.Machine
end

