-- ==== Sys2Proof/Safety.lean ====
section
/-! DEFINITION. What the claims call a legal state, a normal end and a failure. -/

namespace Sys2Proof.Machine

/-- Memory lists no byte outside the `2 * n` bytes of `n` words. -/
abbrev Memory.within (m : Memory) (n : Nat) : Prop := ∀ c ∈ m, c.1 < 2 * n

/-- A legal state (10_state.md R35): the configuration keeps its side conditions, memory is canonical and inside
`MEM_WORDS`, `VBUF` has exactly `VBUF_LEN` cells, `FLAGS[15:1] = 0`, and in FATAL the record's index is one of
`1 .. 65537` (10_state.md R28). -/
abbrev State.Legal (s : State) : Prop :=
  s.cfg.wf ∧ s.mem.wf ∧ s.mem.within s.cfg.memWords ∧ s.vbuf.length = s.cfg.vbufLen ∧
    s.flags.extractLsb' 1 15 = 0 ∧ (s.run = .fatal → 1 ≤ s.fatal.info ∧ s.fatal.info ≤ 65537)

/-- The run has ended normally (40_step_cycle.md R119). -/
abbrev State.ended (s : State) : Prop := s.run = .halted

/-- The run has failed: FATAL is "never a successful end of a run" (60_exceptions.md R274). -/
abbrev State.failed (s : State) : Prop := s.run = .fatal

/-- The register an instruction writes: the destination slot of mov, add, sub, mul, div, inc and load (30_encoding.md
R89), unless it names K0, which no instruction writes (10_state.md R24). -/
def destReg : Instr → Option Reg
  | .mov a _ | .add a _ | .sub a _ | .mul a _ | .div a _ | .inc a | .load a _ =>
    match a.reg with
    | some .k0 => none
    | r => r
  | .store _ _ | .jmp _ | .cmp _ _ | .je _ | .jne _ | .call _ | .hlt | .nop => none

/-- When an instruction takes the default advance (40_step_cycle.md R114): it neither halts, nor takes a jump, nor makes
a data access outside memory. -/
def takesDefaultAdvance (s : State) : Instr → Prop
  | .hlt | .jmp _ => False
  | .je _ => s.z = false
  | .jne _ => s.z = true
  | .load a b => a.reg = none ∨ a.reg = some .k0 ∨ effectiveIndex b.raw < s.cfg.memWords
  | .store a b => b.reg = none ∨ effectiveIndex a.raw < s.cfg.memWords
  | .nop | .mov _ _ | .add _ _ | .sub _ _ | .mul _ _ | .div _ _ | .inc _ | .cmp _ _ | .call _ => True

end Sys2Proof.Machine
end

