-- ==== Sys2Proof/Certificates/Slice0/Obligations.lean ====
section
/-! DEFINITION. The statements for the provers, each from the spec's numbered rules. -/

namespace Sys2Proof.Claims

open Sys2Proof.Machine

/-- `s` after the default advance by `n` words, inside the counter's range, with report `rep` (40_step_cycle.md R114). -/
def advanced (s : State) (n : Nat) (rep : Option Report) : State :=
  { s with pc := BitVec.ofNat 16 (s.pc.toNat + n), result := { outcome := .advanced n, report := rep } }

/-- `s` after entering FATAL (60_exceptions.md R274), with the report the step has emitted. -/
def failed (s : State) (cause : FatalCause) (info : Nat) (rep : Option Report) : State :=
  { s with
    run := .fatal
    fatal := { cause := cause, info := info }
    result := { outcome := .fatal cause info, report := rep } }

/-- Instruction `i` completes: register `d` takes the number `v`, every other register keeps its value, the counter
advances by `n`, no report is emitted, and nothing else of the state changes. -/
def Writes (i : Instr) (s : State) (d : Reg) (v : Nat) (n : Nat) : Prop :=
  ∃ t, exec i s = .next t ∧ (t.get d).toNat = v ∧ (∀ r, r ≠ d → t.get r = s.get r) ∧
    t = { advanced s n none with regs := t.regs }

/-- A destination slot that names no register, or names K0, makes `i` a reported no-op (30_encoding.md R90). -/
def SkipsBadDestination (i : Instr) (a : Operand) (s : State) (n : Nat) : Prop :=
  s.pc.toNat + n ≤ 65535 →
    (a.reg = none → exec i s = .next (advanced s n (some .badRegister))) ∧
    (a.reg = some .k0 → exec i s = .next (advanced s n (some .readOnlyRegister)))

/-- `call a` completes: it changes `VBUF` alone, canvas cell by canvas cell as `cell x y old new` says, and advances by 2
with no report. -/
def Draws (a : Operand) (s : State) (cell : Nat → Nat → Color → Color → Prop) : Prop :=
  ∃ t, exec (.call a) s = .next t ∧ t = { advanced s 2 none with vbuf := t.vbuf } ∧
    t.vbuf.length = s.vbuf.length ∧
    ∀ x y old, x < s.cfg.canvasW → y < s.cfg.canvasH → s.vbuf[y * s.cfg.canvasW + x]? = some old →
      ∃ new, t.vbuf[y * s.cfg.canvasW + x]? = some new ∧ cell x y old new

/-- The cell rule of a function that writes one Color: the covered cells hold it, every other keeps its value. -/
def Paints (covered : Nat → Nat → Prop) (color : Color) (x y : Nat) (old new : Color) : Prop :=
  (covered x y → new = color) ∧ (¬ covered x y → new = old)

/-- Two bytes of a resource as a number, the one at the lower offset the less significant (49_draw_bitmap_glyph.md
R246). -/
def field16 (res : List Byte) (k : Nat) : Nat := (resByte res k).toNat + 2 ^ 8 * (resByte res (k + 1)).toNat

/-- Four bytes of a resource as a number, the one at the lowest offset the least significant (49_draw_bitmap_glyph.md
R246). -/
def field32 (res : List Byte) (k : Nat) : Nat := field16 res k + 2 ^ 16 * field16 res (k + 2)

/-- A number of 32 bits read as two's-complement signed. -/
def signed32 (n : Nat) : Int := if n < 2 ^ 31 then n else (n : Int) - 2 ^ 32

/-- `call a` selects the draw function `f` and its advance stays in range. -/
def Calls (a : Operand) (f : DrawFn) (s : State) : Prop :=
  s.cfg.tables.fnOf a.raw = some f ∧ s.pc.toNat + 2 ≤ 65535

end Sys2Proof.Claims

open Sys2Proof Sys2Proof.Machine Sys2Proof.Claims

/-! ### Encoding -/

/-- Decode and encode agree on every well-formed instruction under every injective tables (30_encoding.md sections 1 to
3 and 5): no bit of an argument word is dropped. -/
def Obligations.EncodedInstructionsDecodeToThemselves : Prop :=
  ∀ (T : Tables) (i : Instr) (rest : List Word), T.wf → i.wf T → decode T (encode T i ++ rest) = .ok (i, rest)

/-- The other direction: what decodes to an instruction is its encoding, up to the high byte of the opcode word. -/
def Obligations.DecodedWordsAreTheEncodingUpToTheHighByte : Prop :=
  ∀ (T : Tables) (ws rest : List Word) (i : Instr), T.wf → decode T ws = .ok (i, rest) →
    i.wf T ∧ ∃ hi : Byte, ws = wordOf (T.tagOf i.opcode) hi :: ((encode T i).tail ++ rest)

/-- 30_encoding.md R81. -/
def Obligations.HighByteOfTheOpcodeWordIsIgnored : Prop :=
  (∀ (T : Tables) (w w' : Word) (rest : List Word), w.toNat % 256 = w'.toNat % 256 →
    decode T (w :: rest) = decode T (w' :: rest)) ∧
  (∀ (T : Tables) (i : Instr), ∃ w, (encode T i).head? = some w ∧ w.toNat / 256 = 0)

/-- 30_encoding.md R83 and R84 under the decided tables, which are injective: each row's tag, opcode and arity, whatever the high byte and the
words that follow; and every other tag. -/
def Obligations.TagsSelectTheirOpcodeAndArity : Prop :=
  Tables.decided.wf ∧
  (∀ row ∈ ([(0x00, .nop, 0), (0x01, .mov, 2), (0x02, .add, 2), (0x03, .sub, 2), (0x04, .mul, 2), (0x05, .div, 2),
      (0x06, .inc, 1), (0x07, .load, 2), (0x08, .store, 2), (0x09, .jmp, 1), (0x0A, .cmp, 2), (0x0B, .je, 1),
      (0x0C, .jne, 1), (0x0D, .call, 1), (0xFF, .hlt, 0)] : List (Byte × Opcode × Nat)),
    ∀ (hi : Byte) (a b : Word) (rest : List Word), ∃ i,
      decode Tables.decided (wordOf row.1 hi :: a :: b :: rest) = .ok (i, (a :: b :: rest).drop row.2.2) ∧
      i.opcode = row.2.1 ∧ i.operands.map Operand.raw = [a, b].take row.2.2) ∧
  (∀ (w : Word) (rest : List Word), 0x0E ≤ w.toNat % 256 → w.toNat % 256 ≤ 0xFE →
    decode Tables.decided (w :: rest) = .error (.unknownOpcode (lo8 w)))

/-- 30_encoding.md R87: under the decided encodings, and, under any, every argument word is classified by itself. -/
def Obligations.RegisterEncodingsClassifyByStorageIndex : Prop :=
  Tables.decided.wf ∧
  (∀ w : Word,
    (0xFF00 ≤ w.toNat ∧ w.toNat ≤ 0xFF18 →
      ∃ r, Tables.decided.regOf w = some r ∧ (regIndex r).val = w.toNat - 0xFF00) ∧
    (w.toNat < 0xFF00 ∨ 0xFF18 < w.toNat → Tables.decided.regOf w = none)) ∧
  ∀ (T : Tables) (ws rest : List Word) (i : Instr), decode T ws = .ok (i, rest) →
    ∀ o ∈ i.operands, o.reg = T.regOf o.raw

/-- A few words written out from 30_encoding.md R94, one or more of each family (95_test_vectors.md V1 to V9). -/
def Obligations.SpecWordsDecode : Prop :=
  decode Tables.decided [0xAB01, 0xFF03, 0x1234] = .ok (.mov ⟨0xFF03, some (.gen 3)⟩ ⟨0x1234, none⟩, []) ∧
  decode Tables.decided [0x0006, 0xFF17] = .ok (.inc ⟨0xFF17, some (.vid 15)⟩, []) ∧
  decode Tables.decided [0x0008, 0x0040, 0xFF18] = .ok (.store ⟨0x0040, none⟩ ⟨0xFF18, some .k0⟩, []) ∧
  decode Tables.decided [0x0009, 0xFF00] = .ok (.jmp ⟨0xFF00, some (.gen 0)⟩, []) ∧
  decode Tables.decided [0x000D, 0x0004] = .ok (.call ⟨4, none⟩, []) ∧
  decode Tables.decided [0x77FF] = .ok (.hlt, []) ∧
  decode Tables.decided [0x000E] = .error (.unknownOpcode 0x0E)

/-! ### The step cycle -/

/-- A step runs the instruction its window decodes to, and the window is the words of memory from `pc` up, as memory is
now. -/
def Obligations.StepRunsTheDecodedInstruction : Prop :=
  ∀ s : State,
    (∀ i rest, s.run = .running → decode s.cfg.tables s.window = .ok (i, rest) → step s = exec i s) ∧
    ∀ k, k < 3 → s.pc.toNat + k < s.cfg.memWords → s.window[k]? = some (s.mem.readWord (s.pc.toNat + k))

/-- 40_step_cycle.md R111. -/
def Obligations.FetchOutsideMemoryIsFatal : Prop :=
  ∀ s : State, s.run = .running →
    (s.cfg.memWords ≤ s.pc.toNat → step s = .next (failed s .fetchBounds s.pc.toNat none)) ∧
    (s.pc.toNat < s.cfg.memWords → s.window.head? = some (s.mem.readWord s.pc.toNat))

/-- 40_step_cycle.md R112: the first argument word outside memory is a fatal `OperandBounds` at its exact index, and an
opcode with no argument runs in the last word of memory. -/
def Obligations.ArgumentOutsideMemoryIsFatal : Prop :=
  ∀ (s : State) (op : Opcode), s.run = .running → s.pc.toNat < s.cfg.memWords →
    s.cfg.tables.opcodeOf (lo8 (s.mem.readWord s.pc.toNat)) = some op →
    (∀ k, 1 ≤ k → k ≤ op.arity → s.pc.toNat + (k - 1) < s.cfg.memWords → s.cfg.memWords ≤ s.pc.toNat + k →
      step s = .next (failed s .operandBounds (s.pc.toNat + k) none)) ∧
    (op.arity = 0 → s.pc.toNat + 1 = s.cfg.memWords → ∃ i, i.opcode = op ∧ step s = exec i s)

/-- 44_halt_nop.md R167: at any index inside memory, the last one too (at 65535, DefaultAdvanceOrPcOverflow says). -/
def Obligations.UnknownOpcodeIsAReportedOneWordNop : Prop :=
  ∀ s : State, s.run = .running → s.pc.toNat < s.cfg.memWords →
    s.cfg.tables.opcodeOf (lo8 (s.mem.readWord s.pc.toNat)) = none → s.pc.toNat + 1 ≤ 65535 →
    step s = .next (advanced s 1 (some .unknownOpcode))

/-- 40_step_cycle.md R117, for any number of step requests and every host move. -/
def Obligations.HaltedAndFatalAreAbsorbing : Prop :=
  ∀ s : State, s.run ≠ .running →
    (∀ n, Sys2Proof.core.run (n + 1) s = .next ({ s with result := { outcome := .idle, report := none } } : State)) ∧
    ∀ m : HostMove, (s.host m).run = .running → m = .reset

/-- The machine is total: no step faults or refuses (00_scope.md section 4, 40_step_cycle.md section on termination). It
rests on the model's choice that FATAL is a next state (log entry 5). -/
def Obligations.EveryStepAnswersANextState : Prop :=
  ∀ s : State, ∃ t, step s = .next t

/-- The reset values of 10_state.md R40, whatever the configuration. The fatal record is unspecified there, and nothing
is said of it. -/
def Obligations.ResetLeavesTheSpecifiedValues : Prop :=
  ∀ c : Config, (∀ r, (State.resetOf c).get r = 0) ∧ (State.resetOf c).pc = 0 ∧ (State.resetOf c).flags = 0 ∧
    (State.resetOf c).run = .running ∧ (∀ i, (State.resetOf c).mem.readWord i = 0) ∧
    (State.resetOf c).vbuf.length = c.vbufLen ∧
    ∀ i, i < c.vbufLen → (State.resetOf c).vbuf[i]? = some { r := 0, g := 0, b := 0, a := 0 }

/-- The state after reset is legal, under every legal configuration and under the launch configuration of log entry 3. -/
def Obligations.ResetIsLegal : Prop :=
  (∀ c : Config, c.wf → (State.resetOf c).Legal) ∧ State.reset.Legal

/-- 10_state.md section 5's invariants: every step from a legal state gives a legal one, and changes no configuration. -/
def Obligations.StepKeepsTheStateLegal : Prop :=
  ∀ s t : State, s.Legal → step s = .next t → t.Legal ∧ t.cfg = s.cfg

/-- The host's moves and the loader keep the state legal too (70_reset_and_hazards.md sections 2 and 3). -/
def Obligations.HostMovesKeepTheStateLegal : Prop :=
  (∀ (s : State) (m : HostMove), s.Legal → (s.host m).Legal) ∧
  ∀ (c : Config) (bytes : List Byte) (s : State), c.wf → State.boot c bytes = some s → s.Legal

/-! ### Frames, over all instructions -/

/-- Every register but the destination keeps its value; K0 is the destination of none. -/
def Obligations.InstructionsWriteOnlyTheirDestinationRegister : Prop :=
  ∀ (i : Instr) (s t : State), exec i s = .next t → ∀ r, destReg i ≠ some r → t.get r = s.get r

/-- "the core only reads K0, never writes it" (10_state.md R24): no step changes it. -/
def Obligations.NoStepChangesTheInputRegister : Prop :=
  ∀ s t : State, step s = .next t → t.get .k0 = s.get .k0

/-- Only cmp writes the flags, and of them Z alone; only je and jne read them (10_state.md R26): any other instruction
but cmp does the same whatever they hold. -/
def Obligations.FlagsAreWrittenByCmpAndReadByJumpsAlone : Prop :=
  ∀ (i : Instr) (s t : State), exec i s = .next t →
    t.flags.extractLsb' 1 15 = s.flags.extractLsb' 1 15 ∧
    (i.opcode ≠ .cmp → t.flags = s.flags) ∧
    (i.opcode ≠ .cmp → i.opcode ≠ .je → i.opcode ≠ .jne →
      ∀ f : Word, exec i { s with flags := f } = .next { t with flags := f })

/-- Every byte of memory is unchanged, but for the two of the word a store addresses. -/
def Obligations.OnlyTheStoredWordOfMemoryChanges : Prop :=
  ∀ (i : Instr) (s t : State), exec i s = .next t →
    (i.opcode ≠ .store → ∀ x, t.mem.readByte x = s.mem.readByte x) ∧
    ∀ a b, i = .store a b → ∀ x, x ≠ 2 * effectiveIndex a.raw → x ≠ 2 * effectiveIndex a.raw + 1 →
      t.mem.readByte x = s.mem.readByte x

/-- A draw call changes `VBUF` only, and no other instruction changes `VBUF` (46_draw_basic.md section on common
properties); beside it the counter advances by 2, or, past 65535, stays with the machine FATAL. -/
def Obligations.OnlyCallChangesTheVideoBuffer : Prop :=
  ∀ (i : Instr) (s t : State), exec i s = .next t →
    (i.opcode ≠ .call → t.vbuf = s.vbuf) ∧
    (i.opcode = .call →
      t = { s with vbuf := t.vbuf, pc := t.pc, run := t.run, fatal := t.fatal, result := t.result } ∧
      (s.pc.toNat + 2 ≤ 65535 → t.run = s.run ∧ t.fatal = s.fatal ∧ t.pc.toNat = s.pc.toNat + 2) ∧
      (65535 < s.pc.toNat + 2 →
        t.pc = s.pc ∧ t.run = .fatal ∧ t.fatal = { cause := .pcOverflow, info := s.pc.toNat + 2 }))

/-- Only jmp, je and jne move the counter other than by the instruction's length (43_compare_jump.md section on control
transfer in general). -/
def Obligations.OnlyJumpsLeaveTheSequence : Prop :=
  ∀ (i : Instr) (s t : State), exec i s = .next t → i.opcode ≠ .jmp → i.opcode ≠ .je → i.opcode ≠ .jne →
    t.pc = s.pc ∧ (t.run = .fatal ∨ i = .hlt) ∨
    t.pc.toNat = s.pc.toNat + 1 + i.opcode.arity ∧ t.run = s.run

/-- The first three fatal causes are precise: the failing step changes the run state, the fatal record and the step
result, nothing else; and the record tells the exact index outside memory and who asked for it (60_exceptions.md R274,
R275). -/
def Obligations.FatalBoundsErrorsChangeNothingElse : Prop :=
  ∀ s t : State, s.run = .running → step s = .next t → t.run = .fatal → t.fatal.cause ≠ .pcOverflow →
    t = failed s t.fatal.cause t.fatal.info none ∧ s.cfg.memWords ≤ t.fatal.info ∧
    (t.fatal.cause = .fetchBounds → t.fatal.info = s.pc.toNat) ∧
    (t.fatal.cause = .operandBounds → s.pc.toNat < s.cfg.memWords ∧
      (t.fatal.info = s.pc.toNat + 1 ∨ t.fatal.info = s.pc.toNat + 2)) ∧
    (t.fatal.cause = .dataBounds → ∃ i rest a b, decode s.cfg.tables s.window = .ok (i, rest) ∧
      (i = .load a b ∧ t.fatal.info = effectiveIndex b.raw ∨ i = .store a b ∧ t.fatal.info = effectiveIndex a.raw))

/-- 40_step_cycle.md R114: an instruction that takes the default advance moves the counter by its length, or, past 65535,
keeps the counter and enters FATAL; its own effects are the same wherever it stands. The fallback
`invalid` advances by 1 the same way. The overflow needs a memory of 65536 words, and its index is then 65536. -/
def Obligations.DefaultAdvanceOrPcOverflow : Prop :=
  (∀ (i : Instr) (s : State), takesDefaultAdvance s i → ∃ t u, exec i s = .next t ∧ exec i { s with pc := 0 } = .next u ∧
    t.regs = u.regs ∧ t.flags = u.flags ∧ t.mem = u.mem ∧ t.vbuf = u.vbuf ∧
    (s.pc.toNat + (1 + i.opcode.arity) ≤ 65535 →
      t.pc.toNat = s.pc.toNat + (1 + i.opcode.arity) ∧ t.run = s.run ∧ t.fatal = s.fatal ∧
      t.result.outcome = .advanced (1 + i.opcode.arity)) ∧
    (65535 < s.pc.toNat + (1 + i.opcode.arity) →
      t.pc = s.pc ∧ t.run = .fatal ∧
      t.fatal = { cause := .pcOverflow, info := s.pc.toNat + (1 + i.opcode.arity) } ∧
      t.result.outcome = .fatal .pcOverflow (s.pc.toNat + (1 + i.opcode.arity)))) ∧
  (∀ s : State, s.run = .running → s.pc.toNat < s.cfg.memWords →
    s.cfg.tables.opcodeOf (lo8 (s.mem.readWord s.pc.toNat)) = none → ∃ t, step s = .next t ∧
      t.regs = s.regs ∧ t.flags = s.flags ∧ t.mem = s.mem ∧ t.vbuf = s.vbuf ∧
      (s.pc.toNat + 1 ≤ 65535 → t.pc.toNat = s.pc.toNat + 1 ∧ t.run = .running) ∧
      (65535 < s.pc.toNat + 1 → t.pc = s.pc ∧ t.run = .fatal ∧
        t.fatal = { cause := .pcOverflow, info := s.pc.toNat + 1 })) ∧
  ∀ s t : State, s.cfg.memWords ≤ 65536 → s.run = .running → step s = .next t → t.run = .fatal →
    t.fatal.cause = .pcOverflow → s.cfg.memWords = 65536 ∧ t.fatal.info = 65536 ∧ t.pc = s.pc

/-- A step that reports changes no register, flag, memory byte or pixel (60_exceptions.md section on the two classes);
and an instruction that takes the default advance reports the same wherever it stands, so that a report stays beside a
counter overflow: the model's reading of 60_exceptions.md R277 (log entry 14). -/
def Obligations.ReportingStepsHaveNoEffect : Prop :=
  (∀ s t : State, step s = .next t → t.result.report ≠ none →
    t.regs = s.regs ∧ t.flags = s.flags ∧ t.mem = s.mem ∧ t.vbuf = s.vbuf) ∧
  ∀ (i : Instr) (s t u : State), takesDefaultAdvance s i → exec i s = .next t →
    exec i { s with pc := 0 } = .next u → t.result.report = u.result.report

/-- A stored word is what the next fetch of that word reads (20_memory.md section 8). -/
def Obligations.StoredWordIsFetchedNext : Prop :=
  ∀ (s : State) (a b : Operand) (r : Reg), s.mem.wf → b.reg = some r → effectiveIndex a.raw < s.cfg.memWords →
    ∃ t, exec (.store a b) s = .next t ∧
      ∀ p : Word, p.toNat = effectiveIndex a.raw → (State.window { t with pc := p }).head? = some (s.get r)

/-! ### Move and arithmetic -/

/-- 41_move_arith.md R126. -/
def Obligations.MovWritesTheRawImmediate : Prop :=
  ∀ (s : State) (a b : Operand),
    encode Tables.decided (.mov a b) = [0x0001, a.raw, b.raw] ∧
    (∀ d, a.reg = some d → d ≠ .k0 → s.pc.toNat + 3 ≤ 65535 → Writes (.mov a b) s d b.raw.toNat 3) ∧
    SkipsBadDestination (.mov a b) a s 3

/-- 41_move_arith.md R127. -/
def Obligations.AddWrapsModulo65536 : Prop :=
  ∀ (s : State) (a b : Operand),
    encode Tables.decided (.add a b) = [0x0002, a.raw, b.raw] ∧
    (∀ d, a.reg = some d → d ≠ .k0 → s.pc.toNat + 3 ≤ 65535 →
      Writes (.add a b) s d (((s.get d).toNat + b.raw.toNat) % 65536) 3) ∧
    SkipsBadDestination (.add a b) a s 3

/-- 41_move_arith.md R128: the difference of integers, modulo 65536 in `0 .. 65535`. -/
def Obligations.SubWrapsModulo65536 : Prop :=
  ∀ (s : State) (a b : Operand),
    encode Tables.decided (.sub a b) = [0x0003, a.raw, b.raw] ∧
    (∀ d, a.reg = some d → d ≠ .k0 → s.pc.toNat + 3 ≤ 65535 →
      Writes (.sub a b) s d ((((s.get d).toNat : Int) - b.raw.toNat) % 65536).toNat 3) ∧
    SkipsBadDestination (.sub a b) a s 3

/-- 41_move_arith.md R129. -/
def Obligations.MulKeepsTheLowSixteenBits : Prop :=
  ∀ (s : State) (a b : Operand),
    encode Tables.decided (.mul a b) = [0x0004, a.raw, b.raw] ∧
    (∀ d, a.reg = some d → d ≠ .k0 → s.pc.toNat + 3 ≤ 65535 →
      Writes (.mul a b) s d (((s.get d).toNat * b.raw.toNat) % 65536) 3) ∧
    SkipsBadDestination (.mul a b) a s 3

/-- 41_move_arith.md R130: the unsigned quotient; by zero the write is skipped and reported; a bad register slot comes
before the divisor's test, whatever the divisor. -/
def Obligations.DivIsTheUnsignedQuotient : Prop :=
  ∀ (s : State) (a b : Operand),
    encode Tables.decided (.div a b) = [0x0005, a.raw, b.raw] ∧
    (∀ d, a.reg = some d → d ≠ .k0 → s.pc.toNat + 3 ≤ 65535 →
      (b.raw ≠ 0 → Writes (.div a b) s d ((s.get d).toNat / b.raw.toNat) 3) ∧
      (b.raw = 0 → exec (.div a b) s = .next (advanced s 3 (some .divideByZero)))) ∧
    SkipsBadDestination (.div a b) a s 3

/-- 41_move_arith.md R131. -/
def Obligations.IncWrapsModulo65536 : Prop :=
  ∀ (s : State) (a : Operand),
    encode Tables.decided (.inc a) = [0x0006, a.raw] ∧
    (∀ d, a.reg = some d → d ≠ .k0 → s.pc.toNat + 2 ≤ 65535 →
      Writes (.inc a) s d (((s.get d).toNat + 1) % 65536) 2) ∧
    SkipsBadDestination (.inc a) a s 2

/-! ### Load and store -/

/-- 42_load_store.md R141. -/
def Obligations.LoadReadsTheWordAtHalfTheOffset : Prop :=
  ∀ (s : State) (a b : Operand),
    encode Tables.decided (.load a b) = [0x0007, a.raw, b.raw] ∧
    (∀ d, a.reg = some d → d ≠ .k0 →
      (b.raw.toNat / 2 < s.cfg.memWords → s.pc.toNat + 3 ≤ 65535 →
        Writes (.load a b) s d (s.mem.readWord (b.raw.toNat / 2)).toNat 3) ∧
      (s.cfg.memWords ≤ b.raw.toNat / 2 →
        exec (.load a b) s = .next (failed s .dataBounds (b.raw.toNat / 2) none))) ∧
    SkipsBadDestination (.load a b) a s 3

/-- 42_load_store.md R142; K0 is a legal source. -/
def Obligations.StoreWritesTheWordAtHalfTheOffset : Prop :=
  ∀ (s : State) (a b : Operand),
    encode Tables.decided (.store a b) = [0x0008, a.raw, b.raw] ∧
    (∀ r, b.reg = some r →
      (a.raw.toNat / 2 < s.cfg.memWords → s.mem.wf → s.pc.toNat + 3 ≤ 65535 →
        ∃ t, exec (.store a b) s = .next t ∧ t.mem.readWord (a.raw.toNat / 2) = s.get r ∧
          (∀ x, x ≠ 2 * (a.raw.toNat / 2) → x ≠ 2 * (a.raw.toNat / 2) + 1 → t.mem.readByte x = s.mem.readByte x) ∧
          t = { advanced s 3 none with mem := t.mem }) ∧
      (s.cfg.memWords ≤ a.raw.toNat / 2 →
        exec (.store a b) s = .next (failed s .dataBounds (a.raw.toNat / 2) none))) ∧
    (b.reg = none → s.pc.toNat + 3 ≤ 65535 → exec (.store a b) s = .next (advanced s 3 (some .badRegister)))

/-- The round trip through memory: a load from the offset of a store, run in any state in which that word and the
counter's range are as they are, gives the stored register's value (42_load_store.md, the round-trip property). -/
def Obligations.LoadAfterStoreGivesTheStoredValue : Prop :=
  ∀ (s u : State) (a b c : Operand) (r d : Reg), s.mem.wf → b.reg = some r → effectiveIndex a.raw < s.cfg.memWords →
    c.reg = some d → d ≠ .k0 → ∃ t, exec (.store a b) s = .next t ∧
      (u.cfg = t.cfg → u.mem.readWord (effectiveIndex a.raw) = t.mem.readWord (effectiveIndex a.raw) →
        ∃ v, exec (.load c a) u = .next v ∧ v.get d = s.get r)

/-! ### Compare and control transfer -/

/-- 43_compare_jump.md R150; K0 may be compared. -/
def Obligations.CmpSetsZIffEqual : Prop :=
  ∀ (s : State) (a b : Operand), encode Tables.decided (.cmp a b) = [0x000A, a.raw, b.raw] ∧ (s.pc.toNat + 3 ≤ 65535 →
    (∀ r, a.reg = some r →
      ∃ t, exec (.cmp a b) s = .next t ∧ (t.flags.getLsbD 0 = true ↔ s.get r = b.raw) ∧
        t.flags.extractLsb' 1 15 = s.flags.extractLsb' 1 15 ∧ t = { advanced s 3 none with flags := t.flags }) ∧
    (a.reg = none → exec (.cmp a b) s = .next (advanced s 3 (some .badRegister))))

/-- 43_compare_jump.md R151: the raw word is the target, unchecked; outside memory the next step is `FetchBounds`. -/
def Obligations.JmpSetsTheCounter : Prop :=
  ∀ (s : State) (a : Operand), encode Tables.decided (.jmp a) = [0x0009, a.raw] ∧ ∃ t, exec (.jmp a) s = .next t ∧
    t = { s with pc := a.raw, result := { outcome := .jumped a.raw, report := none } } ∧
    (s.run = .running → s.cfg.memWords ≤ a.raw.toNat → step t = .next (failed t .fetchBounds a.raw.toNat none))

/-- 43_compare_jump.md R152 and R153. -/
def Obligations.ConditionalJumpsFollowZ : Prop :=
  ∀ (s : State) (a : Operand),
    encode Tables.decided (.je a) = [0x000B, a.raw] ∧ encode Tables.decided (.jne a) = [0x000C, a.raw] ∧
    (s.flags.getLsbD 0 = true →
      exec (.je a) s = .next { s with pc := a.raw, result := { outcome := .jumped a.raw, report := none } } ∧
      (s.pc.toNat + 2 ≤ 65535 → exec (.jne a) s = .next (advanced s 2 none))) ∧
    (s.flags.getLsbD 0 = false →
      exec (.jne a) s = .next { s with pc := a.raw, result := { outcome := .jumped a.raw, report := none } } ∧
      (s.pc.toNat + 2 ≤ 65535 → exec (.je a) s = .next (advanced s 2 none)))

/-- 40_step_cycle.md R115: a taken jump sets the counter to its target, unchecked, with no default advance; one to its
own address leaves the machine where it is, for any number of steps. -/
def Obligations.TakenJumpsSetTheCounterAlone : Prop :=
  ∀ (s : State) (i : Instr) (a : Operand),
    i = .jmp a ∨ i = .je a ∧ s.flags.getLsbD 0 = true ∨ i = .jne a ∧ s.flags.getLsbD 0 = false →
    exec i s = .next { s with pc := a.raw, result := { outcome := .jumped a.raw, report := none } } ∧
    ∀ rest, s.run = .running → decode s.cfg.tables s.window = .ok (i, rest) → a.raw = s.pc →
      ∀ n, Sys2Proof.core.run (n + 1) s =
        .next ({ s with result := { outcome := .jumped s.pc, report := none } } : State)

/-! ### Halt and no-operation -/

/-- 44_halt_nop.md R165: hlt halts with the counter on itself, every later request is idle, and no other instruction
halts a machine. -/
def Obligations.HltAloneHalts : Prop :=
  encode Tables.decided .hlt = [0x00FF] ∧
  (∀ s : State, ∃ t, exec .hlt s = .next t ∧
    t = { s with run := .halted, result := { outcome := .halted, report := none } } ∧
    ∀ n, Sys2Proof.core.run (n + 1) t = .next ({ t with result := { outcome := .idle, report := none } } : State)) ∧
  ∀ (i : Instr) (s t : State), exec i s = .next t → s.run ≠ .halted → t.run = .halted → i = .hlt

/-- 44_halt_nop.md R166. -/
def Obligations.NopOnlyAdvances : Prop :=
  encode Tables.decided .nop = [0x0000] ∧
  ∀ s : State, s.pc.toNat + 1 ≤ 65535 → exec .nop s = .next (advanced s 1 none)

/-! ### call and the Draw Engine -/

/-- 45_call.md R178: with the decided identifiers, those from 7 up. -/
def Obligations.UnknownFunctionIsAReportedNop : Prop :=
  (∀ (s : State) (a : Operand), s.cfg.tables.fnOf a.raw = none → s.pc.toNat + 2 ≤ 65535 →
    exec (.call a) s = .next (advanced s 2 (some .unknownFunction))) ∧
  ∀ w : Word, Tables.decided.fnOf w = DrawFn.all[w.toNat]?

/-- 45_call.md R179, with the decided roles of 45_call.md R177. -/
def Obligations.DrawArgumentsAreGatheredUnsigned : Prop :=
  ∀ s : State, s.cfg.tables.varg = decidedVarg →
    (s.argColor.r.toNat = (s.get (.vid 0)).toNat % 256 ∧ s.argColor.g.toNat = (s.get (.vid 1)).toNat % 256 ∧
      s.argColor.b.toNat = (s.get (.vid 2)).toNat % 256 ∧ s.argColor.a = 255) ∧
    s.argP1 = ⟨(s.get (.vid 3)).toNat, (s.get (.vid 4)).toNat⟩ ∧
    s.argP2 = ⟨(s.get (.vid 5)).toNat, (s.get (.vid 6)).toNat⟩ ∧
    s.argP3 = ⟨(s.get (.vid 7)).toNat, (s.get (.vid 8)).toNat⟩ ∧
    s.argP4 = ⟨(s.get (.vid 9)).toNat, (s.get (.vid 10)).toNat⟩ ∧
    s.argScalar = (s.get (.vid 11)).toNat ∧ s.argChar = s.get (.vid 12)

/-- 45_call.md R180 and 46_draw_basic.md R201; 45_call.md R181 and 46_draw_basic.md R202. -/
def Obligations.ClearAndFillScreenWriteEveryCell : Prop :=
  ∀ (s : State) (a : Operand),
    (Calls a .clearScreen s → ∃ t, exec (.call a) s = .next t ∧ t = { advanced s 2 none with vbuf := t.vbuf } ∧
      t.vbuf.length = s.vbuf.length ∧
      ∀ i, i < s.vbuf.length → t.vbuf[i]? = some ({ r := 0, g := 0, b := 0, a := 255 } : Color)) ∧
    (Calls a .fillScreen s → ∃ t, exec (.call a) s = .next t ∧ t = { advanced s 2 none with vbuf := t.vbuf } ∧
      t.vbuf.length = s.vbuf.length ∧
      ∀ (i : Nat) (old : Color), s.vbuf[i]? = some old →
        t.vbuf[i]? = some ({ r := s.argColor.r, g := s.argColor.g, b := s.argColor.b, a := old.a } : Color))

/-- The cells of fill_rect (45_call.md R184, 46_draw_basic.md R203 and its set characterisation). -/
def Obligations.FillRectPaintsTheCenteredSquare : Prop :=
  ∀ (s : State) (a : Operand), Calls a .fillRect s →
    Draws a s (Paints (fun x y =>
      let x0 := s.argP1.x - (s.argScalar / 2 : Nat)
      let y0 := s.argP1.y - (s.argScalar / 2 : Nat)
      x0 ≤ x ∧ (x : Int) ≤ x0 + s.argScalar - 1 ∧ y0 ≤ y ∧ (y : Int) ≤ y0 + s.argScalar - 1) s.argColor)

/-- The cells of draw_line (45_call.md R182, 47_draw_line.md, the set characterisation). -/
def Obligations.DrawLinePaintsADiscAtEveryStep : Prop :=
  ∀ (s : State) (a : Operand), Calls a .drawLine s →
    Draws a s (Paints (fun x y => ∃ p ∈ steps s.argP1 s.argP2,
      ((x : Int) - p.x) ^ 2 + ((y : Int) - p.y) ^ 2 ≤ ((s.argScalar / 2 : Nat) : Int) ^ 2) s.argColor)

/-- The cells of fill_quad: those of the two triangles (45_call.md R185, 48_draw_triangle_quad.md R233). -/
def Obligations.FillQuadPaintsBothTriangles : Prop :=
  ∀ (s : State) (a : Operand), Calls a .fillQuad s →
    Draws a s (Paints (fun x y =>
      insideTriangle ⟨x, y⟩ s.argP1 s.argP2 s.argP3 = true ∨ insideTriangle ⟨x, y⟩ s.argP1 s.argP3 s.argP4 = true)
      s.argColor)

/-- The cells of draw_bmp, or its report when the resource is absent or fails ParseBmp (45_call.md R183,
49_draw_bitmap_glyph.md R245). -/
def Obligations.DrawBmpCopiesTheBottomUpRows : Prop :=
  ∀ (s : State) (a : Operand), Calls a .drawBmp s →
    ((s.cfg.bmpRes = none ∨ ∃ res, s.cfg.bmpRes = some res ∧ parseBmp res = none) →
      exec (.call a) s = .next (advanced s 2 (some .resourceError))) ∧
    ∀ res hdr, s.cfg.bmpRes = some res → parseBmp res = some hdr →
      Draws a s (fun x y old new =>
        (∀ fx fy : Nat, fx < hdr.w → fy < hdr.h → (x : Int) = s.argP1.x + fx →
          (y : Int) = s.argP1.y + (hdr.h - 1 - fy) →
          let base := hdr.off + fy * hdr.pitch + 3 * fx
          new = { r := resByte res (base + 2), g := resByte res (base + 1), b := resByte res base, a := 255 }) ∧
        ((∀ fx fy : Nat, fx < hdr.w → fy < hdr.h →
          ¬((x : Int) = s.argP1.x + fx ∧ (y : Int) = s.argP1.y + (hdr.h - 1 - fy))) → new = old))

/-- 49_draw_bitmap_glyph.md R246 and R247: ParseBmp gives a header exactly when the resource has 30 bytes, depth 24, a
width and a height that are not negative, and every pixel byte inside it, and the header's fields are then those read at
the offsets 10, 18 and 22, with the pitch of R248; every pixel byte is then read in bounds. A missing or refused resource
is the report with nothing written, an empty picture neither. -/
def Obligations.AcceptedBitmapsAreReadInBounds : Prop :=
  (∀ (res : List Byte) (hdr : BmpHeader), parseBmp res = some hdr ↔
    30 ≤ res.length ∧ field16 res 28 = 24 ∧ hdr.off = field32 res 10 ∧
    (hdr.w : Int) = signed32 (field32 res 18) ∧ (hdr.h : Int) = signed32 (field32 res 22) ∧
    hdr.pitch % 4 = 0 ∧ 3 * hdr.w ≤ hdr.pitch ∧ hdr.pitch < 3 * hdr.w + 4 ∧
    (0 < hdr.w → 0 < hdr.h → hdr.off + (hdr.h - 1) * hdr.pitch + 3 * hdr.w ≤ res.length)) ∧
  (∀ (res : List Byte) (hdr : BmpHeader), parseBmp res = some hdr →
    ∀ x y, x < hdr.w → y < hdr.h → hdr.off + y * hdr.pitch + 3 * x + 2 < res.length) ∧
  ∀ (s : State) (a : Operand), Calls a .drawBmp s →
    ((s.cfg.bmpRes = none ∨ ∃ res, s.cfg.bmpRes = some res ∧ parseBmp res = none) →
      exec (.call a) s = .next (advanced s 2 (some .resourceError))) ∧
    ∀ res hdr, s.cfg.bmpRes = some res → parseBmp res = some hdr → hdr.w = 0 ∨ hdr.h = 0 →
      exec (.call a) s = .next (advanced s 2 none)

/-- The cells of draw_character: the last sample at a cell stays, composited; or the report when the provider fails
(45_call.md R186, 49_draw_bitmap_glyph.md R253). -/
def Obligations.DrawCharacterKeepsTheLastSample : Prop :=
  ∀ (s : State) (a : Operand), Calls a .drawCharacter s →
    (s.cfg.glyph s.argChar = none → exec (.call a) s = .next (advanced s 2 (some .resourceError))) ∧
    ∀ g, s.cfg.glyph s.argChar = some g →
      Draws a s (fun x y old new =>
        let hits (d : Sample) : Prop := (x : Int) = s.argP1.x + d.dx ∧ (y : Int) = s.argP1.y + d.dy
        ((∀ d ∈ g, ¬ hits d) → new = old) ∧
        ∀ before d after, g = before ++ d :: after → hits d → (∀ e ∈ after, ¬ hits e) →
          new = composite s.argColor d.cov)

/-- The resources are read by draw_bmp and draw_character alone (70_reset_and_hazards.md section 3): every other
instruction does the same whatever they hold. -/
def Obligations.OnlyTwoDrawFunctionsReadTheResources : Prop :=
  ∀ (i : Instr) (s t : State) (bmp : Option (List Byte)) (glyphs : List (Word × List Sample)), exec i s = .next t →
    (∀ a, i = .call a → s.cfg.tables.fnOf a.raw ≠ some .drawBmp ∧ s.cfg.tables.fnOf a.raw ≠ some .drawCharacter) →
    exec i (s.host (.resources bmp glyphs)) = .next (t.host (.resources bmp glyphs))

/-- 49_draw_bitmap_glyph.md R255. -/
def Obligations.CompositeScalesEachChannelDown : Prop :=
  ∀ (c : Color) (cov : Byte),
    (composite c cov).r.toNat = c.r.toNat * cov.toNat / 255 ∧ (composite c cov).g.toNat = c.g.toNat * cov.toNat / 255 ∧
    (composite c cov).b.toNat = c.b.toNat * cov.toNat / 255 ∧ (composite c cov).a = 255

/-! ### The set forms are the loops -/

/-- fill_rect as its loops give the same buffer as its set form, on every buffer and canvas. -/
def Obligations.FillRectLoopIsItsSetForm : Prop :=
  ∀ (W H : Nat) (color : Color) (center : Point) (size : Nat) (v : VBuf),
    fillRectLoop W H color center size v = fillRect W H color center size v

/-- draw_line as its loops (Steps, then Stamp) gives the same buffer as its set form. -/
def Obligations.DrawLineLoopIsItsSetForm : Prop :=
  ∀ (W H : Nat) (color : Color) (p q : Point) (t : Nat) (v : VBuf),
    drawLineLoop W H color p q t v = drawLine W H color p q t v

/-- fill_triangle over its bounding box gives the same buffer as its set form: the box never cuts the triangle. -/
def Obligations.FillTriangleLoopIsItsSetForm : Prop :=
  ∀ (W H : Nat) (color : Color) (p1 p2 p3 : Point) (v : VBuf),
    fillTriangleLoop W H color p1 p2 p3 v = fillTriangle W H color p1 p2 p3 v

/-- The pixel loop of draw_bmp gives the same buffer as its set form. -/
def Obligations.BlitBmpLoopIsItsSetForm : Prop :=
  ∀ (W H : Nat) (res : List Byte) (hdr : BmpHeader) (pos : Point) (v : VBuf),
    blitBmpLoop W H res hdr pos v = blitBmp W H res hdr pos v

/-- Inside is the closed triangle: the barycentric coordinates exist, are all at least zero, and the triangle is not
degenerate (48_draw_triangle_quad.md R231). -/
def Obligations.InsideIsTheClosedTriangle : Prop :=
  ∀ p p1 p2 p3 : Point, insideTriangle p p1 p2 p3 = true ↔
    baryD p1 p2 p3 ≠ 0 ∧ ∃ w1 w2 w3 : ℚ, 0 ≤ w1 ∧ 0 ≤ w2 ∧ 0 ≤ w3 ∧ w1 + w2 + w3 = 1 ∧
      (p.x : ℚ) = w1 * p1.x + w2 * p2.x + w3 * p3.x ∧ (p.y : ℚ) = w1 * p1.y + w2 * p2.y + w3 * p3.y

/-- The properties 47_draw_line.md R216 gives of Steps: it starts at `start`, ends at `end`, has
`max(|x1 - x0|, |y1 - y0|) + 1` pixels, moves to a neighbour each time, and on a horizontal, vertical or exactly diagonal
line emits exactly the cells on it, those of its bounding box that are collinear with its ends; and the bound the model
puts on the loop (log entry 17) is never what ends it. -/
def Obligations.StepsReachTheEndPoint : Prop :=
  ∀ p q : Point,
    (steps p q).head? = some p ∧ (steps p q).getLast? = some q ∧
    (steps p q).length = max (q.x - p.x).natAbs (q.y - p.y).natAbs + 1 ∧
    (∀ k a b, (steps p q)[k]? = some a → (steps p q)[k + 1]? = some b →
      a ≠ b ∧ (b.x - a.x).natAbs ≤ 1 ∧ (b.y - a.y).natAbs ≤ 1) ∧
    (q.y = p.y ∨ q.x = p.x ∨ (q.x - p.x).natAbs = (q.y - p.y).natAbs →
      ∀ z : Point, z ∈ steps p q ↔
        (min p.x q.x ≤ z.x ∧ z.x ≤ max p.x q.x) ∧ (min p.y q.y ≤ z.y ∧ z.y ≤ max p.y q.y) ∧
        (z.x - p.x) * (q.y - p.y) = (z.y - p.y) * (q.x - p.x)) ∧
    ∀ n, max (q.x - p.x).natAbs (q.y - p.y).natAbs ≤ n →
      stepsFrom ((q.x - p.x).natAbs : Int) (-((q.y - p.y).natAbs : Int)) (if p.x < q.x then 1 else -1)
        (if p.y < q.y then 1 else -1) q n p.x p.y (((q.x - p.x).natAbs : Int) + -((q.y - p.y).natAbs : Int)) =
      steps p q

/-! ### The host's side -/

/-- 70_reset_and_hazards.md R304 and R305. -/
def Obligations.LoaderPlacesLittleEndianWords : Prop :=
  ∀ (c : Config) (b : List Byte),
    (c.memWords < (b.length + 1) / 2 → State.boot c b = none) ∧
    ((b.length + 1) / 2 ≤ c.memWords → ∃ s, State.boot c b = some s ∧ s = { State.resetOf c with mem := s.mem } ∧
      s.mem.wf ∧
      ∀ i, (∀ lo hi, b[2 * i]? = some lo → b[2 * i + 1]? = some hi →
            (s.mem.readWord i).toNat = lo.toNat + 256 * hi.toNat) ∧
        (∀ lo, b[2 * i]? = some lo → b[2 * i + 1]? = none → (s.mem.readWord i).toNat = lo.toNat) ∧
        (b[2 * i]? = none → s.mem.readWord i = 0))

/-- What the host's write of K0 does, and what the presentation reads (10_state.md R37, R38). -/
def Obligations.HostPortsTouchK0AndReadTheCanvas : Prop :=
  ∀ s : State,
    (∀ k, (s.host (.key k)).get .k0 = k ∧ (∀ r, r ≠ .k0 → (s.host (.key k)).get r = s.get r) ∧
      s.host (.key k) = { s with regs := (s.host (.key k)).regs }) ∧
    (s.vbuf.length = s.cfg.vbufLen → s.readout.length = 4 * s.cfg.vbufLen ∧
      ∀ (i : Nat) (c : Color), s.vbuf[i]? = some c →
        s.readout[4 * i]? = some c.r ∧ s.readout[4 * i + 1]? = some c.g ∧ s.readout[4 * i + 2]? = some c.b ∧
        s.readout[4 * i + 3]? = some c.a)
end

