-- ==== Sys2Proof/Laws/Memory.lean ====
section
/-! SUPPORT. Words and their bytes, and memory: read after write, the canonical form, the bounds. -/

namespace Sys2Proof

theorem lo8_toNat (w : Word) : (lo8 w).toNat = w.toNat % 256 := by simp [lo8]

theorem hi8_toNat (w : Word) : (hi8 w).toNat = w.toNat / 256 := by
  have := w.isLt
  simp only [hi8, BitVec.extractLsb'_toNat, Nat.shiftRight_eq_div_pow]
  omega

theorem wordOf_toNat (lo hi : Byte) : (wordOf lo hi).toNat = lo.toNat + 256 * hi.toNat := by
  have := lo.isLt
  change (hi ++ lo).toNat = _
  rw [BitVec.toNat_append, ← Nat.shiftLeft_add_eq_or_of_lt (by omega), Nat.shiftLeft_eq]
  omega

@[simp] theorem lo8_wordOf (lo hi : Byte) : lo8 (wordOf lo hi) = lo := by
  have := lo.isLt
  apply BitVec.eq_of_toNat_eq
  rw [lo8_toNat, wordOf_toNat]
  omega

@[simp] theorem hi8_wordOf (lo hi : Byte) : hi8 (wordOf lo hi) = hi := by
  have := lo.isLt
  apply BitVec.eq_of_toNat_eq
  rw [hi8_toNat, wordOf_toNat]
  omega

@[simp] theorem wordOf_lo8_hi8 (w : Word) : wordOf (lo8 w) (hi8 w) = w := by
  apply BitVec.eq_of_toNat_eq
  rw [wordOf_toNat, lo8_toNat, hi8_toNat]
  omega

end Sys2Proof

namespace Sys2Proof.Machine

theorem Memory.readByte_writeByte_ne (m : Memory) {a x : Nat} (b : Byte) (h : x ≠ a) :
    (m.writeByte a b).readByte x = m.readByte x := by
  induction m with
  | nil => unfold Memory.writeByte; split <;> simp [Memory.readByte, Ne.symm h]
  | cons c m ih =>
    obtain ⟨k, v⟩ := c
    simp only [Memory.writeByte]
    split
    · split <;> simp [Memory.readByte, Ne.symm h]
    · split
      · subst a; split <;> simp [Memory.readByte, Ne.symm h]
      · simp only [Memory.readByte, ih]

/-- A byte address below every listed one reads as an unlisted one. -/
theorem Memory.readByte_of_lt (m : Memory) (a : Nat) (h : ∀ c ∈ m, a < c.1) : m.readByte a = 0 := by
  induction m with
  | nil => rfl
  | cons c m ih =>
    have hc := h c (by simp)
    simp only [Memory.readByte]
    rw [if_neg (by omega)]
    exact ih fun d hd => h d (by simp [hd])

theorem Memory.wf_cons {c : Host.Cell} {m : Memory} :
    Memory.wf (c :: m) ↔ (∀ d ∈ m, c.1 < d.1) ∧ c.2 ≠ 0 ∧ Memory.wf m := by
  simp only [Memory.wf, List.pairwise_cons, List.mem_cons, forall_eq_or_imp]
  tauto

theorem Memory.readByte_writeByte_self {m : Memory} (hm : m.wf) (a : Nat) (b : Byte) :
    (m.writeByte a b).readByte a = b := by
  induction m with
  | nil => unfold Memory.writeByte; split <;> simp_all [Memory.readByte]
  | cons c m ih =>
    obtain ⟨k, v⟩ := c
    obtain ⟨hk, hv, hm⟩ := Memory.wf_cons.1 hm
    simp only [Memory.writeByte]
    split
    · split
      · subst b
        rw [Memory.readByte_of_lt]
        intro d hd
        rcases List.mem_cons.1 hd with rfl | hd
        · assumption
        · have := hk d hd; simp at this; omega
      · simp [Memory.readByte]
    · split
      · subst a
        split
        · subst b; exact Memory.readByte_of_lt _ _ hk
        · simp [Memory.readByte]
      · simp only [Memory.readByte]
        rw [if_neg (by omega), ih hm]

/-- The keys a byte write can leave: the address written and those listed before. -/
theorem Memory.mem_writeByte {m : Memory} {a : Nat} {b : Byte} {c : Host.Cell} (h : c ∈ m.writeByte a b) :
    c = (a, b) ∧ b ≠ 0 ∨ c ∈ m := by
  induction m with
  | nil => unfold Memory.writeByte at h; split at h <;> simp_all
  | cons d m ih =>
    obtain ⟨k, v⟩ := d
    simp only [Memory.writeByte] at h
    split at h
    · split at h <;> simp_all
    · split at h
      · subst a
        split at h
        · exact .inr (List.mem_cons_of_mem _ h)
        · rcases List.mem_cons.1 h with h | h
          · exact .inl ⟨h, by assumption⟩
          · exact .inr (List.mem_cons_of_mem _ h)
      · rcases List.mem_cons.1 h with h | h
        · simp [h]
        · rcases ih h with h | h
          · exact .inl h
          · exact .inr (List.mem_cons_of_mem _ h)

theorem Memory.wf_writeByte {m : Memory} (hm : m.wf) (a : Nat) (b : Byte) : (m.writeByte a b).wf := by
  induction m with
  | nil =>
    unfold Memory.writeByte
    split
    · exact hm
    · exact Memory.wf_cons.2 ⟨by simp, by assumption, hm⟩
  | cons c m ih =>
    obtain ⟨k, v⟩ := c
    obtain ⟨hk, hv, hm'⟩ := Memory.wf_cons.1 hm
    simp only [Memory.writeByte]
    split
    · split
      · exact hm
      · refine Memory.wf_cons.2 ⟨?_, by assumption, hm⟩
        intro d hd
        rcases List.mem_cons.1 hd with rfl | hd
        · assumption
        · have := hk d hd; simp at this ⊢; omega
    · split
      · subst a
        split
        · exact hm'
        · exact Memory.wf_cons.2 ⟨hk, by assumption, hm'⟩
      · refine Memory.wf_cons.2 ⟨?_, hv, ih hm'⟩
        intro d hd
        rcases Memory.mem_writeByte hd with ⟨rfl, _⟩ | hd
        · simp; omega
        · exact hk d hd

theorem Memory.within_writeByte {m : Memory} {n a : Nat} (h : m.within n) (ha : a < 2 * n) (b : Byte) :
    (m.writeByte a b).within n := by
  intro c hc
  rcases Memory.mem_writeByte hc with ⟨rfl, _⟩ | hc
  · exact ha
  · exact h c hc

theorem Memory.wf_writeWord {m : Memory} (hm : m.wf) (i : Nat) (v : Word) : (m.writeWord i v).wf :=
  Memory.wf_writeByte (Memory.wf_writeByte hm _ _) _ _

theorem Memory.within_writeWord {m : Memory} {n i : Nat} (h : m.within n) (hi : i < n) (v : Word) :
    (m.writeWord i v).within n :=
  Memory.within_writeByte (Memory.within_writeByte h (by omega) _) (by omega) _

theorem Memory.readByte_writeWord_ne (m : Memory) {i x : Nat} (v : Word) (h0 : x ≠ 2 * i) (h1 : x ≠ 2 * i + 1) :
    (m.writeWord i v).readByte x = m.readByte x := by
  rw [Memory.writeWord, Memory.readByte_writeByte_ne _ _ h1, Memory.readByte_writeByte_ne _ _ h0]

theorem Memory.readWord_writeWord_self {m : Memory} (hm : m.wf) (i : Nat) (v : Word) :
    (m.writeWord i v).readWord i = v := by
  have h0 : (m.writeWord i v).readByte (2 * i) = lo8 v := by
    rw [Memory.writeWord, Memory.readByte_writeByte_ne _ _ (by omega), Memory.readByte_writeByte_self hm]
  have h1 : (m.writeWord i v).readByte (2 * i + 1) = hi8 v :=
    Memory.readByte_writeByte_self (Memory.wf_writeByte hm _ _) _ _
  rw [Memory.readWord, h0, h1, wordOf_lo8_hi8]

theorem Memory.readWord_writeWord_ne (m : Memory) {i j : Nat} (v : Word) (h : j ≠ i) :
    (m.writeWord i v).readWord j = m.readWord j := by
  rw [Memory.readWord, Memory.readByte_writeWord_ne _ _ (by omega) (by omega),
    Memory.readByte_writeWord_ne _ _ (by omega) (by omega), Memory.readWord]

theorem Memory.wf_fill (ws : List Word) : ∀ {m : Memory} (i : Nat), m.wf → (m.fill i ws).wf := by
  induction ws with
  | nil => intro m i hm; exact hm
  | cons w ws ih => intro m i hm; exact ih _ (Memory.wf_writeWord hm _ _)

theorem Memory.within_fill (ws : List Word) :
    ∀ {m : Memory} {n : Nat} (i : Nat), m.within n → i + ws.length ≤ n → (m.fill i ws).within n := by
  induction ws with
  | nil => intro m n i hm _; exact hm
  | cons w ws ih =>
    intro m n i hm hn
    simp only [List.length_cons] at hn
    exact ih _ (Memory.within_writeWord hm (by omega) _) (by omega)

/-- Every memory operation of the machine keeps the canonical form: `memWrite` and, below, `placeWords`. -/
theorem State.memWrite_wf {s t : State} {i : Nat} {v : Word} (hs : s.mem.wf) (h : s.memWrite i v = .ok t) :
    t.mem.wf := by
  unfold State.memWrite at h
  split at h
  · cases h
  · cases h; exact Memory.wf_writeWord hs _ _

theorem State.placeWords_wf (ws : List Word) : ∀ (s : State) (i : Nat), s.mem.wf → (s.placeWords i ws).mem.wf := by
  induction ws with
  | nil => intro s i hs; exact hs
  | cons w ws ih =>
    intro s i hs
    unfold State.placeWords
    split
    · exact hs
    · exact ih _ _ (Memory.wf_writeWord hs _ _)

theorem State.resetOf_mem_wf (c : Config) : (State.resetOf c).mem.wf := ⟨List.Pairwise.nil, by simp [State.resetOf]⟩

theorem State.reset_mem_wf : State.reset.mem.wf := State.resetOf_mem_wf _

end Sys2Proof.Machine
end

