-- ==== Sys2Proof/Laws/Decode.lean ====
section
/-! SUPPORT. The tables read both ways, and the formats. -/

namespace Sys2Proof

theorem lookup_some_mem {α β : Type} [BEq α] [LawfulBEq α] {l : List (α × β)} {a : α} {b : β}
    (h : l.lookup a = some b) : (a, b) ∈ l := by
  induction l with
  | nil => simp at h
  | cons p l ih =>
    obtain ⟨k, v⟩ := p
    rw [List.lookup_cons] at h
    by_cases hk : a = k
    · subst hk; simp_all
    · have : (a == k) = false := by simpa using hk
      rw [this] at h
      exact List.mem_cons_of_mem _ (ih h)

theorem lookup_of_mem_nodup {α β : Type} [BEq α] [LawfulBEq α] {l : List (α × β)} {a : α} {b : β}
    (hn : (l.map Prod.fst).Nodup) (h : (a, b) ∈ l) : l.lookup a = some b := by
  induction l with
  | nil => simp at h
  | cons p l ih =>
    obtain ⟨k, v⟩ := p
    simp only [List.map_cons, List.nodup_cons] at hn
    rw [List.lookup_cons]
    rcases List.mem_cons.1 h with h' | h'
    · cases h'; simp
    · have : a ≠ k := by
        rintro rfl
        exact hn.1 (List.mem_map.2 ⟨(a, b), h', rfl⟩)
      have : (a == k) = false := by simpa using this
      rw [this]
      exact ih hn.2 h'

theorem Opcode.mem_all (op : Opcode) : op ∈ Opcode.all := by cases op <;> decide

/-- `OPC` holds the tag `tagOf` gives. -/
theorem Tables.tagOf_mem {T : Tables} (hT : T.wf) (op : Opcode) : (T.tagOf op, op) ∈ T.opc := by
  obtain ⟨p, hp, hpo⟩ := List.mem_map.1 (hT.1.2.2 op (Opcode.mem_all op))
  unfold Tables.tagOf
  split
  · rename_i q hq
    have h1 := List.mem_of_find?_eq_some hq
    have h2 := List.find?_some hq
    simp only [beq_iff_eq] at h2
    rw [← h2]; exact h1
  · rename_i hq
    have := List.find?_eq_none.1 hq p hp
    simp [hpo] at this

theorem Tables.opcodeOf_tagOf {T : Tables} (hT : T.wf) (op : Opcode) : T.opcodeOf (T.tagOf op) = some op :=
  lookup_of_mem_nodup hT.1.1 (Tables.tagOf_mem hT op)

theorem Tables.tagOf_of_opcodeOf {T : Tables} (hT : T.wf) {tag : Byte} {op : Opcode} (h : T.opcodeOf tag = some op) :
    T.tagOf op = tag := by
  have h1 := lookup_some_mem h
  have h2 := Tables.tagOf_mem hT op
  have := List.inj_on_of_nodup_map hT.1.2.1 h2 h1 rfl
  exact congrArg Prod.fst this

theorem Tables.decided_wf : Tables.decided.wf := by decide

@[simp] theorem classify_wf (T : Tables) (a : Word) : (classify T a).wf T := rfl

theorem classify_of_wf {T : Tables} {o : Operand} (h : o.wf T) : classify T o.raw = o := by
  obtain ⟨raw, reg⟩ := o
  simp only [Operand.wf] at h
  simp [classify, h]

end Sys2Proof
end

