-- ==== Sys2Proof/Laws/Draw.lean ====
section
/-! SUPPORT. What painting, the clipped pixel write and folds of it do to each cell. -/

namespace Sys2Proof.Machine

@[simp] theorem length_paint (W H : Nat) (f : Int → Int → Option Color) (v : VBuf) :
    (paint W H f v).length = v.length := by simp [paint]

theorem getElem?_paint (W H : Nat) (f : Int → Int → Option Color) (v : VBuf) (i : Nat) :
    (paint W H f v)[i]? = v[i]?.map (paintCell W H f i) := by
  simp [paint, List.getElem?_zipIdx, Function.comp_def]

/-- A canvas cell `(x, y)` after painting. -/
theorem paintCell_xy {W H : Nat} (f : Int → Int → Option Color) {x y : Nat} (hx : x < W) (hy : y < H) (old : Color) :
    paintCell W H f (y * W + x) old = (f x y).getD old := by
  have hi : y * W + x < W * H := by
    calc y * W + x < y * W + W := by omega
      _ = (y + 1) * W := by ring
      _ ≤ H * W := Nat.mul_le_mul_right _ hy
      _ = W * H := Nat.mul_comm _ _
  have hm : (y * W + x) % W = x := by rw [Nat.mul_comm, Nat.mul_add_mod, Nat.mod_eq_of_lt hx]
  have hd : (y * W + x) / W = y := by
    rw [Nat.mul_comm, Nat.mul_add_div (by omega), Nat.div_eq_of_lt hx, Nat.add_zero]
  rw [paintCell, if_pos hi, hm, hd]

@[simp] theorem length_putPixel (W H : Nat) (v : VBuf) (x y : Int) (c : Color) :
    (putPixel W H v x y c).length = v.length := by
  unfold putPixel; split <;> simp

@[simp] theorem length_clearScreen (v : VBuf) : (clearScreen v).length = v.length := by simp [clearScreen]

@[simp] theorem length_fillScreen (c : Color) (v : VBuf) : (fillScreen c v).length = v.length := by simp [fillScreen]

@[simp] theorem length_blitGlyph (W H : Nat) (g : List Sample) (p : Point) (c : Color) (v : VBuf) :
    (blitGlyph W H g p c v).length = v.length := by
  unfold blitGlyph
  induction g generalizing v with
  | nil => rfl
  | cons d g ih => rw [List.foldl_cons, ih, length_putPixel]

/-- No draw function resizes the buffer. -/
theorem runDraw_length {f : DrawFn} {s : State} {v : VBuf} (h : runDraw f s = .ok v) : v.length = s.vbuf.length := by
  cases f
  case drawBmp =>
    simp only [runDraw, runDrawBmp, drawBmp] at h
    split at h
    · cases h
    · split at h
      · cases h
      · cases h; simp [blitBmp]
  case drawCharacter =>
    simp only [runDraw, runDrawCharacter, drawCharacter] at h
    split at h
    · cases h
    · cases h; simp
  all_goals
    simp only [runDraw, runClearScreen, runFillScreen, runDrawLine, runFillRect, runFillQuad] at h
    cases h
    simp [drawLine, fillRect, fillQuad, fillTriangle]

/-- The clipped pixel write, cell by cell. -/
theorem getElem?_putPixel (W H : Nat) (v : VBuf) (x y : Int) (c : Color) (i : Nat) :
    (putPixel W H v x y c)[i]? =
      if i < W * H ∧ x = (i % W : Nat) ∧ y = (i / W : Nat) then v[i]?.map fun _ => c else v[i]? := by
  unfold putPixel
  by_cases hp : 0 ≤ x ∧ x < W ∧ 0 ≤ y ∧ y < H
  · rw [if_pos hp]
    obtain ⟨hx0, hxW, hy0, hyH⟩ := hp
    obtain ⟨m, rfl⟩ := Int.eq_ofNat_of_zero_le hx0
    obtain ⟨n, rfl⟩ := Int.eq_ofNat_of_zero_le hy0
    have hmW : m < W := by omega
    have hnH : n < H := by omega
    have hidx : ((n : Int) * W + m).toNat = n * W + m := by
      have : ((n : Int) * W + m) = ((n * W + m : Nat) : Int) := by push_cast; ring
      rw [this, Int.toNat_natCast]
    rw [hidx, List.getElem?_set]
    by_cases hi : n * W + m = i
    · subst hi
      have hm : (n * W + m) % W = m := by rw [Nat.mul_comm, Nat.mul_add_mod, Nat.mod_eq_of_lt hmW]
      have hd : (n * W + m) / W = n := by
        rw [Nat.mul_comm, Nat.mul_add_div (by omega), Nat.div_eq_of_lt hmW, Nat.add_zero]
      have hlt : n * W + m < W * H := by
        calc n * W + m < (n + 1) * W := by rw [Nat.add_mul]; omega
          _ ≤ H * W := Nat.mul_le_mul_right _ hnH
          _ = W * H := Nat.mul_comm _ _
      rw [if_pos rfl, if_pos (⟨hlt, by rw [hm], by rw [hd]⟩ : _ ∧ _ ∧ _)]
      by_cases hv : n * W + m < v.length
      · simp [hv]
      · simp [hv]
    · rw [if_neg hi, if_neg]
      rintro ⟨_, h1, h2⟩
      apply hi
      have h1 : m = i % W := by exact_mod_cast h1
      have h2 : n = i / W := by exact_mod_cast h2
      rw [h1, h2, Nat.mul_comm]
      exact Nat.div_add_mod i W
  · rw [if_neg hp, if_neg]
    rintro ⟨hlt, rfl, rfl⟩
    apply hp
    have hW : 0 < W := Nat.pos_of_ne_zero fun h => by simp [h] at hlt
    refine ⟨by positivity, ?_, by positivity, ?_⟩
    · exact_mod_cast Nat.mod_lt _ hW
    · exact_mod_cast (Nat.div_lt_iff_lt_mul hW).2 (by rwa [Nat.mul_comm] at hlt)

/-- A fold whose every step sets cell `i` to `c` where `P` holds and keeps it elsewhere. -/
theorem getElem?_foldl_cell {α : Type} (l : List α) (f : VBuf → α → VBuf) (i : Nat) (P : α → Prop) [DecidablePred P]
    (c : Color) (h : ∀ v, ∀ a ∈ l, (f v a)[i]? = if P a then v[i]?.map (fun _ => c) else v[i]?) (v : VBuf) :
    (l.foldl f v)[i]? = if ∃ a ∈ l, P a then v[i]?.map (fun _ => c) else v[i]? := by
  induction l generalizing v with
  | nil => simp
  | cons a l ih =>
    rw [List.foldl_cons, ih (fun v b hb => h v b (List.mem_cons_of_mem _ hb)), h v a List.mem_cons_self]
    by_cases hp : P a <;> by_cases hl : ∃ b ∈ l, P b <;> simp [hp, hl, Function.comp_def]

/-- The same of the row and column loops. -/
theorem getElem?_forRows_cell (ys xs : List Int) (body : VBuf → Int → Int → VBuf) (i : Nat) (P : Int → Int → Prop)
    [∀ x y, Decidable (P x y)] (c : Color)
    (h : ∀ v, ∀ y ∈ ys, ∀ x ∈ xs, (body v x y)[i]? = if P x y then v[i]?.map (fun _ => c) else v[i]?) (v : VBuf) :
    (forRows ys xs body v)[i]? = if ∃ y ∈ ys, ∃ x ∈ xs, P x y then v[i]?.map (fun _ => c) else v[i]? :=
  getElem?_foldl_cell ys _ i (fun y => ∃ x ∈ xs, P x y) c
    (fun v y hy => getElem?_foldl_cell xs _ i (fun x => P x y) c (fun v x hx => h v y hy x hx) v) v

theorem mem_intRange (a : Int) (n : Nat) (z : Int) : z ∈ intRange a n ↔ a ≤ z ∧ z < a + n := by
  simp only [intRange, List.mem_map, List.mem_range]
  constructor
  · rintro ⟨k, hk, rfl⟩; omega
  · rintro ⟨h1, h2⟩; exact ⟨(z - a).toNat, by omega, by omega⟩

end Sys2Proof.Machine
end

