-- ==== Sys2Proof/Laws/State.lean ====
section
/-! SUPPORT. One lemma per field per update of `State`, so that no later proof unfolds a record update. -/

namespace Sys2Proof.Machine

@[simp] theorem State.raiseFatal_cfg (s : State) (f : FatalRecord) (rep : Option Report) : (s.raiseFatal f rep).cfg = s.cfg := rfl
@[simp] theorem State.raiseFatal_regs (s : State) (f : FatalRecord) (rep : Option Report) : (s.raiseFatal f rep).regs = s.regs := rfl
@[simp] theorem State.raiseFatal_pc (s : State) (f : FatalRecord) (rep : Option Report) : (s.raiseFatal f rep).pc = s.pc := rfl
@[simp] theorem State.raiseFatal_flags (s : State) (f : FatalRecord) (rep : Option Report) : (s.raiseFatal f rep).flags = s.flags := rfl
@[simp] theorem State.raiseFatal_run (s : State) (f : FatalRecord) (rep : Option Report) : (s.raiseFatal f rep).run = .fatal := rfl
@[simp] theorem State.raiseFatal_fatal (s : State) (f : FatalRecord) (rep : Option Report) : (s.raiseFatal f rep).fatal = f := rfl
@[simp] theorem State.raiseFatal_mem (s : State) (f : FatalRecord) (rep : Option Report) : (s.raiseFatal f rep).mem = s.mem := rfl
@[simp] theorem State.raiseFatal_vbuf (s : State) (f : FatalRecord) (rep : Option Report) : (s.raiseFatal f rep).vbuf = s.vbuf := rfl
@[simp] theorem State.raiseFatal_result (s : State) (f : FatalRecord) (rep : Option Report) : (s.raiseFatal f rep).result = { outcome := .fatal f.cause f.info, report := rep } := rfl

@[simp] theorem State.jump_cfg (s : State) (t : Word) : (s.jump t).cfg = s.cfg := rfl
@[simp] theorem State.jump_regs (s : State) (t : Word) : (s.jump t).regs = s.regs := rfl
@[simp] theorem State.jump_pc (s : State) (t : Word) : (s.jump t).pc = t := rfl
@[simp] theorem State.jump_flags (s : State) (t : Word) : (s.jump t).flags = s.flags := rfl
@[simp] theorem State.jump_run (s : State) (t : Word) : (s.jump t).run = s.run := rfl
@[simp] theorem State.jump_fatal (s : State) (t : Word) : (s.jump t).fatal = s.fatal := rfl
@[simp] theorem State.jump_mem (s : State) (t : Word) : (s.jump t).mem = s.mem := rfl
@[simp] theorem State.jump_vbuf (s : State) (t : Word) : (s.jump t).vbuf = s.vbuf := rfl
@[simp] theorem State.jump_result (s : State) (t : Word) : (s.jump t).result = { outcome := .jumped t, report := none } := rfl

@[simp] theorem State.halt_cfg (s : State) : (s.halt).cfg = s.cfg := rfl
@[simp] theorem State.halt_regs (s : State) : (s.halt).regs = s.regs := rfl
@[simp] theorem State.halt_pc (s : State) : (s.halt).pc = s.pc := rfl
@[simp] theorem State.halt_flags (s : State) : (s.halt).flags = s.flags := rfl
@[simp] theorem State.halt_run (s : State) : (s.halt).run = .halted := rfl
@[simp] theorem State.halt_fatal (s : State) : (s.halt).fatal = s.fatal := rfl
@[simp] theorem State.halt_mem (s : State) : (s.halt).mem = s.mem := rfl
@[simp] theorem State.halt_vbuf (s : State) : (s.halt).vbuf = s.vbuf := rfl
@[simp] theorem State.halt_result (s : State) : (s.halt).result = { outcome := .halted, report := none } := rfl

@[simp] theorem State.idle_cfg (s : State) : (s.idle).cfg = s.cfg := rfl
@[simp] theorem State.idle_regs (s : State) : (s.idle).regs = s.regs := rfl
@[simp] theorem State.idle_pc (s : State) : (s.idle).pc = s.pc := rfl
@[simp] theorem State.idle_flags (s : State) : (s.idle).flags = s.flags := rfl
@[simp] theorem State.idle_run (s : State) : (s.idle).run = s.run := rfl
@[simp] theorem State.idle_fatal (s : State) : (s.idle).fatal = s.fatal := rfl
@[simp] theorem State.idle_mem (s : State) : (s.idle).mem = s.mem := rfl
@[simp] theorem State.idle_vbuf (s : State) : (s.idle).vbuf = s.vbuf := rfl
@[simp] theorem State.idle_result (s : State) : (s.idle).result = { outcome := .idle, report := none } := rfl

@[simp] theorem State.compare_cfg (s : State) (x y : Word) : (s.compare x y).cfg = s.cfg := rfl
@[simp] theorem State.compare_regs (s : State) (x y : Word) : (s.compare x y).regs = s.regs := rfl
@[simp] theorem State.compare_pc (s : State) (x y : Word) : (s.compare x y).pc = s.pc := rfl
@[simp] theorem State.compare_flags (s : State) (x y : Word) : (s.compare x y).flags = setFlagZ s.flags (x == y) := rfl
@[simp] theorem State.compare_run (s : State) (x y : Word) : (s.compare x y).run = s.run := rfl
@[simp] theorem State.compare_fatal (s : State) (x y : Word) : (s.compare x y).fatal = s.fatal := rfl
@[simp] theorem State.compare_mem (s : State) (x y : Word) : (s.compare x y).mem = s.mem := rfl
@[simp] theorem State.compare_vbuf (s : State) (x y : Word) : (s.compare x y).vbuf = s.vbuf := rfl
@[simp] theorem State.compare_result (s : State) (x y : Word) : (s.compare x y).result = s.result := rfl

@[simp] theorem State.setReg_cfg (s : State) (r : Reg) (v : Word) : (s.setReg r v).cfg = s.cfg := by
  unfold State.setReg; split <;> rfl
@[simp] theorem State.setReg_pc (s : State) (r : Reg) (v : Word) : (s.setReg r v).pc = s.pc := by
  unfold State.setReg; split <;> rfl
@[simp] theorem State.setReg_flags (s : State) (r : Reg) (v : Word) : (s.setReg r v).flags = s.flags := by
  unfold State.setReg; split <;> rfl
@[simp] theorem State.setReg_run (s : State) (r : Reg) (v : Word) : (s.setReg r v).run = s.run := by
  unfold State.setReg; split <;> rfl
@[simp] theorem State.setReg_fatal (s : State) (r : Reg) (v : Word) : (s.setReg r v).fatal = s.fatal := by
  unfold State.setReg; split <;> rfl
@[simp] theorem State.setReg_mem (s : State) (r : Reg) (v : Word) : (s.setReg r v).mem = s.mem := by
  unfold State.setReg; split <;> rfl
@[simp] theorem State.setReg_vbuf (s : State) (r : Reg) (v : Word) : (s.setReg r v).vbuf = s.vbuf := by
  unfold State.setReg; split <;> rfl
@[simp] theorem State.setReg_result (s : State) (r : Reg) (v : Word) : (s.setReg r v).result = s.result := by
  unfold State.setReg; split <;> rfl

@[simp] theorem State.advance_cfg (s : State) (n : Nat) (rep : Option Report) : (s.advance n rep).cfg = s.cfg := by
  unfold State.advance; split <;> rfl
@[simp] theorem State.advance_regs (s : State) (n : Nat) (rep : Option Report) : (s.advance n rep).regs = s.regs := by
  unfold State.advance; split <;> rfl
@[simp] theorem State.advance_flags (s : State) (n : Nat) (rep : Option Report) : (s.advance n rep).flags = s.flags := by
  unfold State.advance; split <;> rfl
@[simp] theorem State.advance_mem (s : State) (n : Nat) (rep : Option Report) : (s.advance n rep).mem = s.mem := by
  unfold State.advance; split <;> rfl
@[simp] theorem State.advance_vbuf (s : State) (n : Nat) (rep : Option Report) : (s.advance n rep).vbuf = s.vbuf := by
  unfold State.advance; split <;> rfl

end Sys2Proof.Machine
end

