-- ==== Sys2Proof/Laws/Ops.lean ====
section
/-! SUPPORT. What each shared operation can do, said once. -/

namespace Sys2Proof.Machine

theorem regIndex_injective {r q : Reg} (h : regIndex r = regIndex q) : r = q := by
  have h' := congrArg Fin.val h
  cases r <;> cases q <;> simp only [regIndex, Fin.isValue] at h' <;>
    first
    | rfl
    | (congr 1; ext; omega)
    | (exfalso; change _ = 24 at h'; omega)
    | (exfalso; change 24 = _ at h'; omega)
    | (exfalso; omega)

/-- Reading back the register written, unless it is K0, whose write is suppressed. -/
theorem State.get_setReg_self (s : State) {r : Reg} (hr : r ≠ .k0) (v : Word) : (s.setReg r v).get r = v := by
  simp [State.setReg, hr, State.get]

theorem State.get_setReg_ne (s : State) {r q : Reg} (h : q ≠ r) (v : Word) : (s.setReg r v).get q = s.get q := by
  unfold State.setReg
  split
  · rfl
  · have : (regIndex r).val ≠ (regIndex q).val := fun e => h (regIndex_injective (Fin.ext e)).symm
    simp [State.get, Vector.getElem_set_ne _ _ this]

theorem State.setReg_k0 (s : State) (v : Word) : s.setReg .k0 v = s := by simp [State.setReg]

/-- A register write changes the register file alone. -/
theorem State.setReg_eq (s : State) (r : Reg) (v : Word) : s.setReg r v = { s with regs := (s.setReg r v).regs } := by
  unfold State.setReg; split <;> rfl

@[simp] theorem State.advance_get (s : State) (n : Nat) (rep : Option Report) (r : Reg) :
    (s.advance n rep).get r = s.get r := by simp [State.get]

/-- The default advance inside the counter's range. -/
theorem State.advance_of_le {s : State} {n : Nat} (h : s.pc.toNat + n ≤ 65535) (rep : Option Report) :
    s.advance n rep =
      { s with pc := BitVec.ofNat 16 (s.pc.toNat + n), result := { outcome := .advanced n, report := rep } } := by
  unfold State.advance; rw [if_neg (by omega)]

/-- The default advance past the counter's range. -/
theorem State.advance_of_gt {s : State} {n : Nat} (h : 65535 < s.pc.toNat + n) (rep : Option Report) :
    s.advance n rep = s.raiseFatal { cause := .pcOverflow, info := s.pc.toNat + n } rep := by
  unfold State.advance; rw [if_pos h]

/-- Everything the default advance can do. -/
theorem State.advance_cases (s : State) (n : Nat) (rep : Option Report) :
    (s.pc.toNat + n ≤ 65535 ∧ s.advance n rep =
      { s with pc := BitVec.ofNat 16 (s.pc.toNat + n), result := { outcome := .advanced n, report := rep } }) ∨
    (65535 < s.pc.toNat + n ∧
      s.advance n rep = s.raiseFatal { cause := .pcOverflow, info := s.pc.toNat + n } rep) := by
  rcases Nat.lt_or_ge 65535 (s.pc.toNat + n) with h | h
  · exact .inr ⟨h, State.advance_of_gt h rep⟩
  · exact .inl ⟨h, State.advance_of_le h rep⟩

/-- The default advance leaves the report it is given. -/
@[simp] theorem State.advance_report (s : State) (n : Nat) (rep : Option Report) :
    (s.advance n rep).result.report = rep := by
  unfold State.advance; split <;> rfl

theorem State.memRead_of_lt {s : State} {i : Nat} (h : i < s.cfg.memWords) (c : FatalCause) :
    s.memRead c i = .ok (s.mem.readWord i) := by
  unfold State.memRead; rw [if_neg (by omega)]

theorem State.memRead_of_ge {s : State} {i : Nat} (h : s.cfg.memWords ≤ i) (c : FatalCause) :
    s.memRead c i = .error { cause := c, info := i } := by
  unfold State.memRead; rw [if_pos h]

theorem State.memWrite_of_lt {s : State} {i : Nat} (h : i < s.cfg.memWords) (v : Word) :
    s.memWrite i v = .ok { s with mem := s.mem.writeWord i v } := by
  unfold State.memWrite; rw [if_neg (by omega)]

theorem State.memWrite_of_ge {s : State} {i : Nat} (h : s.cfg.memWords ≤ i) (v : Word) :
    s.memWrite i v = .error { cause := .dataBounds, info := i } := by
  unfold State.memWrite; rw [if_pos h]

/-! ### Register slots -/

theorem destSlot_of_reg {a : Operand} {d : Reg} (h : a.reg = some d) (hd : d ≠ .k0) : destSlot a = .ok d := by
  simp [destSlot, h, hd]

theorem destSlot_of_k0 {a : Operand} (h : a.reg = some .k0) : destSlot a = .error .readOnlyRegister := by
  simp [destSlot, h]

theorem destSlot_of_none {a : Operand} (h : a.reg = none) : destSlot a = .error .badRegister := by
  simp [destSlot, h]

theorem srcSlot_of_reg {a : Operand} {r : Reg} (h : a.reg = some r) : srcSlot a = .ok r := by simp [srcSlot, h]

theorem srcSlot_of_none {a : Operand} (h : a.reg = none) : srcSlot a = .error .badRegister := by simp [srcSlot, h]

/-- What a destination slot can be. -/
theorem destSlot_cases (a : Operand) :
    (∃ d, a.reg = some d ∧ d ≠ .k0 ∧ destSlot a = .ok d) ∨ ∃ rep, destSlot a = .error rep := by
  rcases h : a.reg with _ | d
  · exact .inr ⟨_, destSlot_of_none h⟩
  · rcases eq_or_ne d .k0 with rfl | hd
    · exact .inr ⟨_, destSlot_of_k0 h⟩
    · exact .inl ⟨d, rfl, hd, destSlot_of_reg h hd⟩

@[simp] theorem withSlot_ok (r : Reg) (n : Nat) (s : State) (k : Reg → State) : withSlot (.ok r) n s k = k r := rfl

@[simp] theorem withSlot_error (rep : Report) (n : Nat) (s : State) (k : Reg → State) :
    withSlot (.error rep) n s k = s.advance n (some rep) := rfl

/-! ### Flags -/

@[simp] theorem flagZ_setFlagZ (w : Word) (b : Bool) : flagZ (setFlagZ w b) = b := by
  cases b <;> simp [flagZ, setFlagZ, zBit]

/-- Writing Z keeps `FLAGS[15:1]`. -/
@[simp] theorem setFlagZ_high (w : Word) (b : Bool) : (setFlagZ w b).extractLsb' 1 15 = w.extractLsb' 1 15 := by
  ext i hi
  cases b <;> simp [setFlagZ, zBit]
  intro _
  interval_cases i <;> rfl

/-! ### Fetching -/

theorem State.length_wordsFrom_le (s : State) : ∀ n i, (s.wordsFrom n i).length ≤ n := by
  intro n
  induction n with
  | zero => intro i; simp [State.wordsFrom]
  | succ n ih =>
    intro i
    unfold State.wordsFrom
    split
    · simp
    · simpa using ih (i + 1)

/-- A fetched word is the memory word at its index, and the index lies inside memory. -/
theorem State.getElem?_wordsFrom {s : State} : ∀ {n i k : Nat} {w : Word}, (s.wordsFrom n i)[k]? = some w →
    i + k < s.cfg.memWords ∧ w = s.mem.readWord (i + k) := by
  intro n
  induction n with
  | zero => intro i k w h; simp [State.wordsFrom] at h
  | succ n ih =>
    intro i k w h
    unfold State.wordsFrom at h
    split at h
    · simp at h
    · cases k with
      | zero =>
        have h : s.mem.readWord i = w := by simpa using h
        exact ⟨by omega, h.symm⟩
      | succ k =>
        have := ih (i := i + 1) (k := k) (w := w) (by simpa using h)
        rwa [show i + 1 + k = i + (k + 1) by omega] at this

/-- The words of a stretch that lies inside memory. -/
theorem State.getElem?_wordsFrom_of_lt {s : State} : ∀ {n i k : Nat}, k < n → i + k < s.cfg.memWords →
    (s.wordsFrom n i)[k]? = some (s.mem.readWord (i + k)) := by
  intro n
  induction n with
  | zero => intro i k h; omega
  | succ n ih =>
    intro i k hk hm
    unfold State.wordsFrom
    rw [if_neg (by omega)]
    cases k with
    | zero => simp
    | succ k =>
      rw [List.getElem?_cons_succ, ih (by omega) (by omega)]
      rw [show i + 1 + k = i + (k + 1) by omega]

theorem State.wordsFrom_of_ge {s : State} {i : Nat} (h : s.cfg.memWords ≤ i) (n : Nat) : s.wordsFrom n i = [] := by
  cases n with
  | zero => rfl
  | succ n => unfold State.wordsFrom; rw [if_pos h]

end Sys2Proof.Machine
end

