-- ==== Sys2Proof/Laws/Exec.lean ====
section
/-! SUPPORT. Everything an instruction and a step can do, said once: invariants and frames are case splits over these. -/

namespace Sys2Proof.Machine

/-- The length of an instruction in words (30_encoding.md R80). -/
abbrev len (i : Instr) : Nat := 1 + i.opcode.arity

/-- Every way an instruction can change a state. -/
inductive Effect (s : State) : Instr → State → Prop where
  /-- Nothing but the default advance, with or without a report. -/
  | skip (i : Instr) (rep : Option Report) (hj : ∀ a, i ≠ .jmp a) (hh : i ≠ .hlt) :
      Effect s i (s.advance (len i) rep)
  /-- A register write. -/
  | write (i : Instr) (d : Reg) (v : Word) (h : destReg i = some d) (hk : d ≠ .k0) :
      Effect s i ((s.setReg d v).advance (len i) none)
  /-- `cmp`. -/
  | flag (a b : Operand) (x y : Word) : Effect s (.cmp a b) ((s.compare x y).advance 3 none)
  /-- `store` inside memory. -/
  | mem (a b : Operand) (v : Word) (h : effectiveIndex a.raw < s.cfg.memWords) :
      Effect s (.store a b) (State.advance { s with mem := s.mem.writeWord (effectiveIndex a.raw) v } 3 none)
  /-- A draw function. -/
  | draw (a : Operand) (f : DrawFn) (v : VBuf) (h : runDraw f s = .ok v) :
      Effect s (.call a) (State.advance { s with vbuf := v } 2 none)
  /-- A taken jump. -/
  | jump (i : Instr) (w : Word) (h : i.opcode = .jmp ∨ i.opcode = .je ∨ i.opcode = .jne) : Effect s i (s.jump w)
  /-- `hlt`. -/
  | halt : Effect s .hlt s.halt
  /-- `load` or `store` outside memory. -/
  | data (i : Instr) (x : Word) (h : ∃ a b, i = .load a b ∧ x = b.raw ∨ i = .store a b ∧ x = a.raw)
      (hx : s.cfg.memWords ≤ effectiveIndex x) :
      Effect s i (s.raiseFatal { cause := .dataBounds, info := effectiveIndex x } none)

theorem destReg_of_reg {a : Operand} {d : Reg} (h : a.reg = some d) (hd : d ≠ .k0) :
    (match a.reg with | some .k0 => none | r => r) = some d := by
  rw [h]; cases d <;> first | rfl | contradiction

theorem updateReg_effect (i : Instr) (a : Operand) (f : Word → Word) (s : State) (hj : ∀ a, i ≠ .jmp a)
    (hh : i ≠ .hlt) (hd : destReg i = match a.reg with | some .k0 => none | r => r) :
    Effect s i (updateReg a (len i) f s) := by
  unfold updateReg
  rcases destSlot_cases a with ⟨d, hr, hk, he⟩ | ⟨rep, he⟩
  · rw [he]; exact .write i d _ (hd.trans (destReg_of_reg hr hk)) hk
  · rw [he]; exact .skip i _ hj hh

/-- Every instruction answers a next state, one of the effects above. -/
theorem exec_effect (i : Instr) (s : State) : ∃ t, exec i s = .next t ∧ Effect s i t := by
  cases i
  case nop => exact ⟨_, rfl, .skip _ _ (by simp) (by simp)⟩
  case mov a b => exact ⟨_, rfl, updateReg_effect (.mov a b) a _ s (by simp) (by simp) rfl⟩
  case add a b => exact ⟨_, rfl, updateReg_effect (.add a b) a _ s (by simp) (by simp) rfl⟩
  case sub a b => exact ⟨_, rfl, updateReg_effect (.sub a b) a _ s (by simp) (by simp) rfl⟩
  case mul a b => exact ⟨_, rfl, updateReg_effect (.mul a b) a _ s (by simp) (by simp) rfl⟩
  case inc a => exact ⟨_, rfl, updateReg_effect (.inc a) a _ s (by simp) (by simp) rfl⟩
  case div a b =>
    refine ⟨_, rfl, ?_⟩
    rcases destSlot_cases a with ⟨d, hr, hk, he⟩ | ⟨rep, he⟩
    · rw [he, withSlot_ok]
      split
      · exact .skip _ _ (by simp) (by simp)
      · exact .write _ d _ (destReg_of_reg hr hk) hk
    · rw [he]; exact .skip _ _ (by simp) (by simp)
  case load a b =>
    refine ⟨_, rfl, ?_⟩
    rcases destSlot_cases a with ⟨d, hr, hk, he⟩ | ⟨rep, he⟩
    · rw [he, withSlot_ok]
      rcases Nat.lt_or_ge (effectiveIndex (valueSlot b)) s.cfg.memWords with h | h
      · rw [State.memRead_of_lt h]; exact .write _ d _ (destReg_of_reg hr hk) hk
      · rw [State.memRead_of_ge h]; exact .data _ b.raw ⟨_, _, .inl ⟨rfl, rfl⟩⟩ h
    · rw [he]; exact .skip _ _ (by simp) (by simp)
  case store a b =>
    refine ⟨_, rfl, ?_⟩
    rcases hr : b.reg with _ | r
    · rw [srcSlot_of_none hr]; exact .skip _ _ (by simp) (by simp)
    · rw [srcSlot_of_reg hr, withSlot_ok]
      rcases Nat.lt_or_ge (effectiveIndex (valueSlot a)) s.cfg.memWords with h | h
      · rw [State.memWrite_of_lt h]; exact .mem a b _ h
      · rw [State.memWrite_of_ge h]; exact .data _ a.raw ⟨_, _, .inr ⟨rfl, rfl⟩⟩ h
  case jmp a => exact ⟨_, rfl, .jump _ _ (.inl rfl)⟩
  case cmp a b =>
    refine ⟨_, rfl, ?_⟩
    rcases hr : a.reg with _ | r
    · rw [srcSlot_of_none hr]; exact .skip _ _ (by simp) (by simp)
    · rw [srcSlot_of_reg hr]; exact .flag a b _ _
  case je a =>
    refine ⟨_, rfl, ?_⟩
    unfold jumpIf
    split
    · exact .jump _ _ (.inr (.inl rfl))
    · exact .skip _ _ (by simp) (by simp)
  case jne a =>
    refine ⟨_, rfl, ?_⟩
    unfold jumpIf
    split
    · exact .jump _ _ (.inr (.inr rfl))
    · exact .skip _ _ (by simp) (by simp)
  case call a =>
    refine ⟨_, rfl, ?_⟩
    split
    · exact .skip _ _ (by simp) (by simp)
    · rename_i f _
      split
      · exact .skip _ _ (by simp) (by simp)
      · rename_i v hv; exact .draw a f v hv
  case hlt => exact ⟨_, rfl, .halt⟩

/-- The inversion of an execution. -/
theorem effect_of_exec {i : Instr} {s t : State} (h : exec i s = .next t) : Effect s i t := by
  obtain ⟨u, hu, he⟩ := exec_effect i s
  rw [h] at hu; cases hu; exact he

/-! ### One lemma per meaning, on a usable register slot -/

theorem updateReg_of_reg {a : Operand} {d : Reg} (h : a.reg = some d) (hd : d ≠ .k0) (n : Nat) (f : Word → Word)
    (s : State) : updateReg a n f s = (s.setReg d (f (s.get d))).advance n none := by
  unfold updateReg; rw [destSlot_of_reg h hd, withSlot_ok]

theorem execDiv_of_reg {a b : Operand} {d : Reg} (h : a.reg = some d) (hd : d ≠ .k0) (s : State) :
    exec (.div a b) s = .next (if b.raw = 0 then s.advance 3 (some .divideByZero)
      else (s.setReg d (BitVec.ofNat 16 ((s.get d).toNat / b.raw.toNat))).advance 3 none) := by
  change Host.Outcome.next (withSlot (destSlot a) 3 s _) = _
  rw [destSlot_of_reg h hd]; rfl

theorem execLoad_of_lt {a b : Operand} {d : Reg} {s : State} (h : a.reg = some d) (hd : d ≠ .k0)
    (hi : effectiveIndex b.raw < s.cfg.memWords) :
    exec (.load a b) s = .next ((s.setReg d (s.mem.readWord (effectiveIndex b.raw))).advance 3 none) := by
  change Host.Outcome.next (withSlot (destSlot a) 3 s _) = _
  rw [destSlot_of_reg h hd, withSlot_ok, valueSlot, State.memRead_of_lt hi]

theorem execLoad_of_ge {a b : Operand} {d : Reg} {s : State} (h : a.reg = some d) (hd : d ≠ .k0)
    (hi : s.cfg.memWords ≤ effectiveIndex b.raw) :
    exec (.load a b) s = .next (s.raiseFatal { cause := .dataBounds, info := effectiveIndex b.raw } none) := by
  change Host.Outcome.next (withSlot (destSlot a) 3 s _) = _
  rw [destSlot_of_reg h hd, withSlot_ok, valueSlot, State.memRead_of_ge hi]

theorem execStore_of_lt {a b : Operand} {r : Reg} {s : State} (h : b.reg = some r)
    (hi : effectiveIndex a.raw < s.cfg.memWords) :
    exec (.store a b) s =
      .next (State.advance { s with mem := s.mem.writeWord (effectiveIndex a.raw) (s.get r) } 3 none) := by
  change Host.Outcome.next (withSlot (srcSlot b) 3 s _) = _
  rw [srcSlot_of_reg h, withSlot_ok, valueSlot, State.memWrite_of_lt hi]

theorem execStore_of_ge {a b : Operand} {r : Reg} {s : State} (h : b.reg = some r)
    (hi : s.cfg.memWords ≤ effectiveIndex a.raw) :
    exec (.store a b) s = .next (s.raiseFatal { cause := .dataBounds, info := effectiveIndex a.raw } none) := by
  change Host.Outcome.next (withSlot (srcSlot b) 3 s _) = _
  rw [srcSlot_of_reg h, withSlot_ok, valueSlot, State.memWrite_of_ge hi]

theorem execCmp_of_reg {a b : Operand} {r : Reg} (h : a.reg = some r) (s : State) :
    exec (.cmp a b) s = .next ((s.compare (s.get r) b.raw).advance 3 none) := by
  change Host.Outcome.next (withSlot (srcSlot a) 3 s _) = _
  rw [srcSlot_of_reg h]; rfl

theorem execCall_of_ok {a : Operand} {f : DrawFn} {v : VBuf} {s : State} (h : s.cfg.tables.fnOf a.raw = some f)
    (hv : runDraw f s = .ok v) : exec (.call a) s = .next (State.advance { s with vbuf := v } 2 none) := by
  change execCall a s = _
  unfold execCall
  simp only [valueSlot, h, hv]

theorem execCall_of_error {a : Operand} {f : DrawFn} {rep : Report} {s : State}
    (h : s.cfg.tables.fnOf a.raw = some f) (hv : runDraw f s = .error rep) :
    exec (.call a) s = .next (s.advance 2 (some rep)) := by
  change execCall a s = _
  unfold execCall
  simp only [valueSlot, h, hv, State.skip]

/-! ### Decoding what is in the window -/

theorem formatF0_ok {i j : Instr} {ws rest : List Word} (h : formatF0 i ws = .ok (j, rest)) : j = i ∧ rest = ws := by
  simp only [formatF0, Except.ok.injEq, Prod.mk.injEq] at h; exact ⟨h.1.symm, h.2.symm⟩

theorem formatF1_ok {T : Tables} {mk : Operand → Instr} {j : Instr} {ws rest : List Word}
    (h : formatF1 T mk ws = .ok (j, rest)) : ∃ a, ws = a :: rest ∧ j = mk (classify T a) := by
  cases ws with
  | nil => cases h
  | cons a ws =>
    simp only [formatF1, Except.ok.injEq, Prod.mk.injEq] at h
    exact ⟨a, by rw [h.2], h.1.symm⟩

theorem formatF2_ok {T : Tables} {mk : Operand → Operand → Instr} {j : Instr} {ws rest : List Word}
    (h : formatF2 T mk ws = .ok (j, rest)) :
    ∃ a b, ws = a :: b :: rest ∧ j = mk (classify T a) (classify T b) := by
  match ws, h with
  | [], h => cases h
  | [_], h => cases h
  | a :: b :: ws, h =>
    simp only [formatF2, Except.ok.injEq, Prod.mk.injEq] at h
    exact ⟨a, b, by rw [h.2], h.1.symm⟩

/-- What the decoder has read when it answers an instruction. -/
theorem decode_ok {T : Tables} {ws rest : List Word} {i : Instr} (h : decode T ws = .ok (i, rest)) :
    ∃ w, T.opcodeOf (lo8 w) = some i.opcode ∧ ws = w :: (i.operands.map Operand.raw ++ rest) ∧ i.wf T := by
  cases ws with
  | nil => cases h
  | cons w ws =>
    simp only [decode] at h
    split at h
    · cases h
    · rename_i op hop
      refine ⟨w, ?_⟩
      cases op <;> simp only [decodeArgs] at h
      case nop => obtain ⟨rfl, rfl⟩ := formatF0_ok h; exact ⟨hop, rfl, by simp [Instr.wf, Instr.operands]⟩
      case hlt => obtain ⟨rfl, rfl⟩ := formatF0_ok h; exact ⟨hop, rfl, by simp [Instr.wf, Instr.operands]⟩
      case inc | jmp | je | jne | call =>
        obtain ⟨a, rfl, rfl⟩ := formatF1_ok h
        exact ⟨hop, rfl, by simp [Instr.wf, Instr.operands, classify]⟩
      all_goals
        obtain ⟨a, b, rfl, rfl⟩ := formatF2_ok h
        exact ⟨hop, rfl, by simp [Instr.wf, Instr.operands, classify]⟩

theorem length_operands (i : Instr) : i.operands.length = i.opcode.arity := by cases i <;> rfl

/-- A decoded instruction's words lie inside memory. -/
theorem pc_add_len_le {s : State} {i : Instr} {rest : List Word}
    (h : decode s.cfg.tables s.window = .ok (i, rest)) : s.pc.toNat + len i ≤ s.cfg.memWords := by
  obtain ⟨w, _, hw, _⟩ := decode_ok h
  have hl : (s.window)[i.opcode.arity]? ≠ none := by
    rw [hw, ne_eq, List.getElem?_eq_none_iff, not_le]
    simp [length_operands]
  obtain ⟨v, hv⟩ := Option.ne_none_iff_exists'.1 hl
  have := (State.getElem?_wordsFrom hv).1
  simp only [len]; omega

/-- Which word the decoder misses: a slot of the window past its end. -/
theorem decode_missing {T : Tables} {ws : List Word} {k : Nat} (h : decode T ws = .error (.missing k)) :
    k = ws.length ∧ k ≤ 2 := by
  cases ws with
  | nil => cases h; simp
  | cons w ws =>
    simp only [decode] at h
    split at h
    · cases h
    · rename_i op _
      rcases ws with _ | ⟨a, _ | ⟨b, ws⟩⟩ <;> cases op <;>
        simp only [decodeArgs, formatF0, formatF1, formatF2] at h <;> cases h <;> simp

/-- The slot a fetch misses lies outside memory, and, if it is an argument, the opcode word inside. -/
theorem missing_ge {s : State} {k : Nat} (h : decode s.cfg.tables s.window = .error (.missing k)) :
    s.cfg.memWords ≤ s.pc.toNat + k ∧ k ≤ 2 ∧ (k ≠ 0 → s.pc.toNat < s.cfg.memWords) := by
  obtain ⟨hk, h2⟩ := decode_missing h
  refine ⟨?_, h2, fun h0 => ?_⟩
  rotate_left
  · by_contra hge
    rw [State.window, State.wordsFrom_of_ge (by omega)] at hk
    exact h0 hk
  by_contra hlt
  have := State.getElem?_wordsFrom_of_lt (s := s) (n := 3) (i := s.pc.toNat) (k := k) (by omega) (by omega)
  have hn : s.window[k]? = none := List.getElem?_eq_none (by omega)
  rw [State.window] at hn
  rw [hn] at this
  cases this

/-- An unknown opcode's word lies inside memory. -/
theorem unknown_lt {s : State} {tag : Byte} (h : decode s.cfg.tables s.window = .error (.unknownOpcode tag)) :
    s.pc.toNat < s.cfg.memWords := by
  by_contra hge
  rw [State.window, State.wordsFrom_of_ge (by omega)] at h
  cases h

/-- Everything a step can do. -/
theorem step_cases (s : State) :
    (s.run ≠ .running ∧ step s = .next s.idle) ∨
    (s.run = .running ∧
      ((∃ i rest, decode s.cfg.tables s.window = .ok (i, rest) ∧ step s = exec i s) ∨
       (∃ k, decode s.cfg.tables s.window = .error (.missing k) ∧
          step s = .next (s.raiseFatal (s.missingWord k) none)) ∨
       (∃ tag, decode s.cfg.tables s.window = .error (.unknownOpcode tag) ∧
          step s = .next (s.advance 1 (some .unknownOpcode))))) := by
  rcases hr : s.run with _ | _ | _
  case running =>
    refine .inr ⟨rfl, ?_⟩
    rcases hd : decode s.cfg.tables s.window with e | ⟨i, rest⟩
    · cases e with
      | unknownOpcode tag => exact .inr (.inr ⟨tag, rfl, by unfold step; simp only [hr, hd]; rfl⟩)
      | missing k => exact .inr (.inl ⟨k, rfl, by unfold step; simp only [hr, hd]⟩)
    · exact .inl ⟨i, rest, rfl, by unfold step; simp only [hr, hd]⟩
  all_goals exact .inl ⟨by simp, by unfold step; simp only [hr]⟩

end Sys2Proof.Machine
end

