-- ==== Sys2Proof/Laws/PerInstr.lean ====
section
/-! SUPPORT. Families of statements about the instruction as syntax, one lemma per constructor. -/

namespace Sys2Proof.Laws.EncodedLength

/-- An instruction's encoding has `1 + ARITY(op)` words (30_encoding.md R80, R85), under any tables. -/
def Statement (i : Instr) : Prop := ∀ T : Tables, (encode T i).length = 1 + i.opcode.arity

theorem nop : Statement .nop := fun _ => rfl
theorem mov (a b : Operand) : Statement (.mov a b) := fun _ => rfl
theorem add (a b : Operand) : Statement (.add a b) := fun _ => rfl
theorem sub (a b : Operand) : Statement (.sub a b) := fun _ => rfl
theorem mul (a b : Operand) : Statement (.mul a b) := fun _ => rfl
theorem div (a b : Operand) : Statement (.div a b) := fun _ => rfl
theorem inc (a : Operand) : Statement (.inc a) := fun _ => rfl
theorem load (a b : Operand) : Statement (.load a b) := fun _ => rfl
theorem store (a b : Operand) : Statement (.store a b) := fun _ => rfl
theorem jmp (a : Operand) : Statement (.jmp a) := fun _ => rfl
theorem cmp (a b : Operand) : Statement (.cmp a b) := fun _ => rfl
theorem je (a : Operand) : Statement (.je a) := fun _ => rfl
theorem jne (a : Operand) : Statement (.jne a) := fun _ => rfl
theorem call (a : Operand) : Statement (.call a) := fun _ => rfl
theorem hlt : Statement .hlt := fun _ => rfl

end Sys2Proof.Laws.EncodedLength
end

