-- ==== Sys2Proof/Tests/Slice0.lean ====
section
/-! SUPPORT. The model's own tests: expected values from 95_test_vectors.md and the rules it cites, and one witness for
the hypotheses of every statement that has some. -/

namespace Sys2Proof.Tests

open Sys2Proof.Machine Sys2Proof.Claims

/-! ### Helpers -/

/-- `n` words of memory, an 8 by 8 canvas, no resource. -/
def small (n : Nat) : Config := { launchConfig with memWords := n, fbWidth := 16, fbHeight := 16 }

/-- Reset under `small n`, the counter at `pc`. -/
def s0 (n : Nat) (pc : Word) : State := { State.resetOf (small n) with pc := pc }

/-- An argument word under the decided tables. -/
def op (w : Word) : Operand := classify Tables.decided w

/-- `exec` answers a next state that satisfies `p`. -/
def runs (i : Instr) (s : State) (p : State → Bool) : Bool :=
  match exec i s with
  | .next t => p t
  | _ => false

/-- `step` answers a next state that satisfies `p`. -/
def steps1 (s : State) (p : State → Bool) : Bool :=
  match step s with
  | .next t => p t
  | _ => false

/-- Words stored from index 0 of a reset machine. -/
def prog (n : Nat) (pc : Word) (ws : List Word) : State := { (s0 n pc) with mem := Memory.fill [] 0 ws }

/-- The canvas points of an 8 by 8 buffer that hold `c`. -/
def cellsOf (c : Color) (v : VBuf) : List (Nat × Nat) :=
  (v.zipIdx.filter fun p => p.1 == c).map fun p => (p.2 % 8, p.2 / 8)

/-- The 8 by 8 reset buffer. -/
def blank : VBuf := List.replicate 64 { r := 0, g := 0, b := 0, a := 0 }

/-- A color for the draw tests. -/
def ink : Color := { r := 200, g := 100, b := 50, a := 255 }

/-! ### WellFormed: what each check refuses -/

theorem test_wf_accepts : (Instr.mov ⟨0xFF03, some (.gen 3)⟩ ⟨0x1234, none⟩).wf Tables.decided := by decide
theorem test_wf_refuses_missing_register : ¬ (Instr.inc ⟨0xFF03, none⟩).wf Tables.decided := by decide
theorem test_wf_refuses_invented_register : ¬ (Instr.jmp ⟨0x0003, some (.gen 3)⟩).wf Tables.decided := by decide
theorem test_wf_refuses_second_operand :
    ¬ (Instr.mov ⟨0xFF03, some (.gen 3)⟩ ⟨0xFF04, some (.gen 3)⟩).wf Tables.decided := by decide
theorem test_tables_wf_refuses_double_tag :
    ¬ ({ Tables.decided with opc := (0, .hlt) :: decidedOpc } : Tables).wf := by decide
theorem test_tables_wf_refuses_lost_register :
    ¬ ({ Tables.decided with regenc := decidedRegenc.drop 1 } : Tables).wf := by decide
theorem test_tables_wf_refuses_double_function :
    ¬ ({ Tables.decided with fnid := (7, .clearScreen) :: decidedFnid } : Tables).wf := by decide
theorem test_tables_wf_refuses_shared_role :
    ¬ ({ Tables.decided with varg := { decidedVarg with char := 11 } } : Tables).wf := by decide
theorem test_config_wf_refuses_no_memory : ¬ (small 0).wf ∧ ¬ (small 65537).wf := by decide

/-! ### Decoding: words from 30_encoding.md R83, R87, R94 and 95_test_vectors.md V1 to V11 -/

theorem test_decode_nop : decode Tables.decided [0x0000] = .ok (.nop, []) := by decide
theorem test_decode_mov : decode Tables.decided [0x0001, 0xFF03, 0x1234] =
    .ok (.mov ⟨0xFF03, some (.gen 3)⟩ ⟨0x1234, none⟩, []) := by decide
theorem test_decode_add : decode Tables.decided [0x0002, 0xFF00, 0x0005] =
    .ok (.add ⟨0xFF00, some (.gen 0)⟩ ⟨5, none⟩, []) := by decide
theorem test_decode_sub : decode Tables.decided [0x0003, 0xFF01, 0x0005] =
    .ok (.sub ⟨0xFF01, some (.gen 1)⟩ ⟨5, none⟩, []) := by decide
theorem test_decode_mul : decode Tables.decided [0x0004, 0xFF02, 0x012C] =
    .ok (.mul ⟨0xFF02, some (.gen 2)⟩ ⟨300, none⟩, []) := by decide
theorem test_decode_div : decode Tables.decided [0x0005, 0xFF04, 0x0007] =
    .ok (.div ⟨0xFF04, some (.gen 4)⟩ ⟨7, none⟩, []) := by decide
theorem test_decode_inc : decode Tables.decided [0x0006, 0xFF17] = .ok (.inc ⟨0xFF17, some (.vid 15)⟩, []) := by decide
theorem test_decode_load : decode Tables.decided [0x0007, 0xFF03, 0x0040] =
    .ok (.load ⟨0xFF03, some (.gen 3)⟩ ⟨0x40, none⟩, []) := by decide
theorem test_decode_store : decode Tables.decided [0x0008, 0x0040, 0xFF18] =
    .ok (.store ⟨0x40, none⟩ ⟨0xFF18, some .k0⟩, []) := by decide
theorem test_decode_jmp : decode Tables.decided [0x0009, 0xFF00] = .ok (.jmp ⟨0xFF00, some (.gen 0)⟩, []) := by decide
theorem test_decode_cmp : decode Tables.decided [0x000A, 0xFF01, 0x0003] =
    .ok (.cmp ⟨0xFF01, some (.gen 1)⟩ ⟨3, none⟩, []) := by decide
theorem test_decode_je : decode Tables.decided [0x000B, 0x0020] = .ok (.je ⟨0x20, none⟩, []) := by decide
theorem test_decode_jne : decode Tables.decided [0x000C, 0x0020] = .ok (.jne ⟨0x20, none⟩, []) := by decide
theorem test_decode_call : decode Tables.decided [0x000D, 0x0004] = .ok (.call ⟨4, none⟩, []) := by decide
theorem test_decode_hlt : decode Tables.decided [0x77FF] = .ok (.hlt, []) := by decide
theorem test_decode_unassigned_tags : decode Tables.decided [0x000E] = .error (.unknownOpcode 0x0E) ∧
    decode Tables.decided [0x00FE] = .error (.unknownOpcode 0xFE) := by decide
theorem test_decode_bad_register_slot : decode Tables.decided [0x0001, 0xFF19, 5] = .ok (.mov ⟨0xFF19, none⟩ ⟨5, none⟩, []) ∧
    decode Tables.decided [0x0001, 0xFEFF, 5] = .ok (.mov ⟨0xFEFF, none⟩ ⟨5, none⟩, []) := by decide
theorem test_decode_truncated : decode Tables.decided [0x0001, 0xFF00] = .error (.missing 2) ∧
    decode Tables.decided [0x0006] = .error (.missing 1) ∧ decode Tables.decided [] = .error (.missing 0) := by decide
theorem test_encode_mov : encode Tables.decided (.mov (op 0xFF03) (op 0x1234)) = [0x0001, 0xFF03, 0x1234] := by decide
theorem test_table_word_little_endian : decodeTableWord 48 0x1234FF030001 = some (.mov (op 0xFF03) (op 0x1234)) ∧
    decodeTableWord 16 0x000D = some (.call (op 0)) ∧ decodeTableWord 16 0x000E = none := by decide

/-! ### One instruction each (95_test_vectors.md sections 2.2 to 2.5) -/

/-- V13: the raw word, not the value of R1. -/
theorem test_mov_raw : runs (.mov (op 0xFF00) (op 0xFF01)) ((s0 64 0).setReg (.gen 0) 7)
    (fun t => t.get (.gen 0) == 0xFF01 && t.pc == 3 && t.result == ⟨.advanced 3, none⟩) = true := by decide
/-- V27. -/
theorem test_mov_k0 : runs (.mov (op 0xFF18) (op 1)) ((s0 64 0).writeKey 0x41)
    (fun t => t.get .k0 == 0x41 && t.pc == 3 && t.result == ⟨.advanced 3, some .readOnlyRegister⟩) = true := by decide
/-- V14, V15. -/
theorem test_add_wraps : runs (.add (op 0xFF00) (op 5)) ((s0 64 0).setReg (.gen 0) 0xFFFE)
      (fun t => t.get (.gen 0) == 3 && t.flags == 0) = true ∧
    runs (.add (op 0xFF00) (op 0xFFFF)) ((s0 64 0).setReg (.gen 0) 0xFFFF) (fun t => t.get (.gen 0) == 0xFFFE) = true := by
  decide
/-- V16, V17. -/
theorem test_sub_wraps : runs (.sub (op 0xFF01) (op 5)) ((s0 64 0).setReg (.gen 1) 3)
      (fun t => t.get (.gen 1) == 0xFFFE) = true ∧
    runs (.sub (op 0xFF01) (op 0xFFFF)) (s0 64 0) (fun t => t.get (.gen 1) == 1) = true := by decide
/-- V18, V19. -/
theorem test_mul_wraps : runs (.mul (op 0xFF02) (op 300)) ((s0 64 0).setReg (.gen 2) 300)
      (fun t => t.get (.gen 2) == 24464) = true ∧
    runs (.mul (op 0xFF02) (op 0xFFFF)) ((s0 64 0).setReg (.gen 2) 0xFFFF) (fun t => t.get (.gen 2) == 1) = true := by
  decide
/-- V21, V22. -/
theorem test_div_floors : runs (.div (op 0xFF04) (op 7)) ((s0 64 0).setReg (.gen 4) 100)
      (fun t => t.get (.gen 4) == 14) = true ∧
    runs (.div (op 0xFF04) (op 2)) ((s0 64 0).setReg (.gen 4) 0xFFFF) (fun t => t.get (.gen 4) == 0x7FFF) = true := by
  decide
/-- V24, and the bad register slot before the divisor. -/
theorem test_div_by_zero : runs (.div (op 0xFF04) (op 0)) ((s0 64 0).setReg (.gen 4) 14)
      (fun t => t.get (.gen 4) == 14 && t.pc == 3 && t.result.report == some .divideByZero) = true ∧
    runs (.div (op 5) (op 0)) (s0 64 0) (fun t => t.result.report == some .badRegister) = true := by decide
/-- V26. -/
theorem test_inc_wraps : runs (.inc (op 0xFF07)) ((s0 64 0).setReg (.gen 7) 0xFFFF)
    (fun t => t.get (.gen 7) == 0 && t.pc == 2) = true := by decide
/-- V41: an odd offset reads the same word. -/
theorem test_load_odd_offset : runs (.load (op 0xFF03) (op 0x41)) { (s0 64 0) with mem := Memory.writeWord [] 0x20 0xBEEF }
    (fun t => t.get (.gen 3) == 0xBEEF && t.pc == 3) = true := by decide
/-- V44, V45. -/
theorem test_load_bad_slot : runs (.load (op 5) (op 0xFFFE)) (s0 64 0)
      (fun t => t.run == .running && t.pc == 3 && t.result.report == some .badRegister) = true ∧
    runs (.load (op 0xFF18) (op 0)) ((s0 64 0).writeKey 0x41)
      (fun t => t.get .k0 == 0x41 && t.result.report == some .readOnlyRegister) = true := by decide
/-- V39, V42. -/
theorem test_store_words : runs (.store (op 0x40) (op 0xFF00)) ((s0 64 0).setReg (.gen 0) 0x1234)
      (fun t => t.mem == [(0x40, 0x34), (0x41, 0x12)]) = true ∧
    runs (.store (op 0x7F) (op 0xFF00)) ((s0 64 0).setReg (.gen 0) 7) (fun t => t.mem.readWord 63 == 7) = true := by decide
/-- V43. -/
theorem test_store_outside : runs (.store (op 0x80) (op 0xFF00)) ((s0 64 0).setReg (.gen 0) 7)
    (fun t => t.run == .fatal && t.fatal == ⟨.dataBounds, 64⟩ && t.pc == 0 && t.mem == []) = true := by decide
/-- V28, V29. -/
theorem test_cmp_sets_and_clears : runs (.cmp (op 0xFF01) (op 3)) ((s0 64 6).setReg (.gen 1) 3)
      (fun t => t.z && t.pc == 9) = true ∧
    runs (.cmp (op 0xFF01) (op 4)) { (s0 64 6).setReg (.gen 1) 3 with flags := 1 } (fun t => !t.z && t.pc == 9) = true := by
  decide
/-- V35, and K0 as a source. -/
theorem test_cmp_slots : runs (.cmp (op 7) (op 7)) { (s0 64 6) with flags := 1 }
      (fun t => t.z && t.pc == 9 && t.result.report == some .badRegister) = true ∧
    runs (.cmp (op 0xFF18) (op 0x41)) ((s0 64 6).writeKey 0x41) (fun t => t.z) = true := by decide
/-- V34. -/
theorem test_jmp_to_itself : runs (.jmp (op 6)) (s0 64 6) (fun t => t.pc == 6 && t.result == ⟨.jumped 6, none⟩) = true := by
  decide
/-- V30, V31. -/
theorem test_je : runs (.je (op 0x20)) { (s0 64 6) with flags := 1 } (fun t => t.pc == 0x20) = true ∧
    runs (.je (op 0x20)) (s0 64 6) (fun t => t.pc == 8) = true := by decide
/-- V32, V33. -/
theorem test_jne : runs (.jne (op 0x20)) (s0 64 6) (fun t => t.pc == 0x20) = true ∧
    runs (.jne (op 0x20)) { (s0 64 6) with flags := 1 } (fun t => t.pc == 8) = true := by decide
/-- V37. -/
theorem test_nop : runs .nop (s0 64 9) (fun t => t.pc == 10 && t.result == ⟨.advanced 1, none⟩) = true := by decide
/-- V38. -/
theorem test_hlt : runs .hlt (s0 64 9) (fun t => t.pc == 9 && t.run == .halted &&
    steps1 t (fun u => u.pc == 9 && u.run == .halted && u.result == ⟨.idle, none⟩)) = true := by decide
/-- Program P6, step 7, and 2.8: a channel takes the low byte of its register, fill_screen keeps alpha. -/
theorem test_call : runs (.call (op 9)) (s0 64 16)
      (fun t => t.pc == 18 && t.result.report == some .unknownFunction) = true ∧
    runs (.call (op 1)) (((s0 64 0).setReg (.vid 0) 0x01FF).setReg (.vid 1) 0x0100)
      (fun t => t.vbuf[63]? == some ⟨255, 0, 0, 0⟩ && t.pc == 2) = true := by decide

/-! ### The step cycle (95_test_vectors.md section 2.11) -/

/-- V36. -/
theorem test_step_unknown_opcode : steps1 { (s0 64 9) with mem := Memory.writeWord [] 9 0x0042 }
    (fun t => t.pc == 10 && t.result == ⟨.advanced 1, some .unknownOpcode⟩) = true := by decide
/-- V64a, its last step. -/
theorem test_step_fetch_bounds : steps1 (prog 8 8 [0x0006, 0xFF00])
    (fun t => t.run == .fatal && t.fatal == ⟨.fetchBounds, 8⟩ && t.pc == 8) = true := by decide
/-- V64b, its last step. -/
theorem test_step_operand_bounds : steps1 (prog 8 6 [0, 0, 0, 0, 0, 0, 0x0001, 0xFF00])
    (fun t => t.run == .fatal && t.fatal == ⟨.operandBounds, 8⟩ && t.pc == 6 && t.get (.gen 0) == 0) = true := by decide
/-- V64d, its last step: the effect stays. -/
theorem test_step_pc_overflow : steps1
    { (s0 65536 0xFFFE) with mem := (Memory.writeWord [] 0xFFFE 0x0006).writeWord 0xFFFF 0xFF00 }
    (fun t => t.run == .fatal && t.fatal == ⟨.pcOverflow, 65536⟩ && t.pc == 0xFFFE && t.get (.gen 0) == 1) = true := by decide
/-- V64e, its last step. -/
theorem test_step_nop_at_the_top : steps1 (s0 65536 0xFFFF)
    (fun t => t.run == .fatal && t.fatal == ⟨.pcOverflow, 65536⟩ && t.pc == 0xFFFF) = true := by decide
/-- Program P3, step 6: the stored word is fetched at once. -/
theorem test_step_self_modified : steps1 { (s0 64 15) with mem := Memory.writeWord [] 15 0x00FF }
    (fun t => t.run == .halted && t.pc == 15) = true := by decide
/-- The host's placing of an instruction, run as the first step after reset. -/
theorem test_with_fetch_word : steps1 (State.reset.withFetchWord 48 0x1234FF030001)
    (fun t => t.get (.gen 3) == 0x1234 && t.pc == 3) = true := by decide
theorem test_with_fetch_word_hlt : steps1 (State.reset.withFetchWord 16 0xFF) (fun t => t.run == .halted) = true := by decide

/-! ### The Draw Engine (95_test_vectors.md sections 2.6 to 2.10) -/

/-- V67a, V67e, V67h. -/
theorem test_fill_rect : (cellsOf ink (fillRect 8 8 ink ⟨5, 5⟩ 4 blank)).length = 16 ∧
    cellsOf ink (fillRect 8 8 ink ⟨0, 0⟩ 4 blank) = [(0, 0), (1, 0), (0, 1), (1, 1)] ∧
    (cellsOf ink (fillRect 8 8 ink ⟨1, 6⟩ 65535 blank)).length = 64 := by decide
/-- The first four rows of the table of 2.9. -/
theorem test_steps : steps ⟨0, 0⟩ ⟨3, 2⟩ = [⟨0, 0⟩, ⟨1, 1⟩, ⟨2, 1⟩, ⟨3, 2⟩] ∧
    steps ⟨3, 2⟩ ⟨0, 0⟩ = [⟨3, 2⟩, ⟨2, 1⟩, ⟨1, 1⟩, ⟨0, 0⟩] ∧
    steps ⟨0, 0⟩ ⟨2, 5⟩ = [⟨0, 0⟩, ⟨0, 1⟩, ⟨1, 2⟩, ⟨1, 3⟩, ⟨2, 4⟩, ⟨2, 5⟩] ∧
    steps ⟨5, 1⟩ ⟨0, 3⟩ = [⟨5, 1⟩, ⟨4, 1⟩, ⟨3, 2⟩, ⟨2, 2⟩, ⟨1, 3⟩, ⟨0, 3⟩] := by decide
/-- Rows of the same table: a diagonal, a vertical and a one-point line. -/
theorem test_steps_straight : steps ⟨0, 0⟩ ⟨4, 4⟩ = [⟨0, 0⟩, ⟨1, 1⟩, ⟨2, 2⟩, ⟨3, 3⟩, ⟨4, 4⟩] ∧
    steps ⟨2, 6⟩ ⟨2, 3⟩ = [⟨2, 6⟩, ⟨2, 5⟩, ⟨2, 4⟩, ⟨2, 3⟩] ∧ steps ⟨3, 3⟩ ⟨3, 3⟩ = [⟨3, 3⟩] := by decide
/-- V61. -/
theorem test_draw_line_disc : cellsOf ink (drawLine 8 8 ink ⟨0, 0⟩ ⟨0, 0⟩ 6 blank) =
    [(0, 0), (1, 0), (2, 0), (3, 0), (0, 1), (1, 1), (2, 1), (0, 2), (1, 2), (2, 2), (0, 3)] := by decide
/-- V63a and V63b: either orientation; V63d: collinear. -/
theorem test_fill_triangle : (cellsOf ink (fillTriangle 8 8 ink ⟨0, 0⟩ ⟨4, 0⟩ ⟨0, 4⟩ blank)).length = 15 ∧
    fillTriangle 8 8 ink ⟨0, 0⟩ ⟨0, 4⟩ ⟨4, 0⟩ blank = fillTriangle 8 8 ink ⟨0, 0⟩ ⟨4, 0⟩ ⟨0, 4⟩ blank ∧
    cellsOf ink (fillTriangle 8 8 ink ⟨0, 0⟩ ⟨2, 2⟩ ⟨4, 4⟩ blank) = [] := by decide
/-- V57. -/
theorem test_fill_quad : cellsOf ink (fillQuad 8 8 ink ⟨1, 0⟩ ⟨6, 1⟩ ⟨5, 6⟩ ⟨0, 4⟩ blank) =
    [(1, 0), (1, 1), (2, 1), (3, 1), (4, 1), (5, 1), (6, 1), (1, 2), (2, 2), (3, 2), (4, 2), (5, 2),
     (1, 3), (2, 3), (3, 3), (4, 3), (5, 3), (0, 4), (1, 4), (2, 4), (3, 4), (4, 4), (5, 4),
     (3, 5), (4, 5), (5, 5), (5, 6)] := by decide

/-- V40. -/
def v40 : List Byte :=
  [0x42, 0x4D, 0x46, 0, 0, 0, 0, 0, 0, 0, 0x36, 0, 0, 0, 0x28, 0, 0, 0, 2, 0, 0, 0, 2, 0, 0, 0, 1, 0, 0x18, 0] ++
  [0, 0, 0, 0, 0x10, 0, 0, 0, 0x13, 0x0B, 0, 0, 0x13, 0x0B, 0, 0, 0, 0, 0, 0, 0, 0, 0, 0] ++
  [0xFF, 0, 0, 0, 0xFF, 0, 0, 0] ++ [0, 0, 0xFF, 0xFF, 0xFF, 0xFF, 0, 0]

/-- The cells a draw changed on the 8 by 8 reset buffer. -/
def touched (v : VBuf) : List (Nat × Nat × Color) :=
  (v.zipIdx.filter fun p => p.1 != { r := 0, g := 0, b := 0, a := 0 }).map fun p => (p.2 % 8, p.2 / 8, p.1)

/-- V40, V48 to V53: what ParseBmp accepts and what it refuses. -/
theorem test_parse_bmp : parseBmp v40 = some ⟨54, 2, 2, 8⟩ ∧ parseBmp (v40.set 28 0x20) = none ∧
    parseBmp (v40.take 67) = none ∧ parseBmp (v40.take 68) = some ⟨54, 2, 2, 8⟩ ∧ parseBmp (v40.take 29) = none ∧
    parseBmp ((((v40.set 22 0xFE).set 23 0xFF).set 24 0xFF).set 25 0xFF) = none ∧
    parseBmp (v40.set 18 0) = some ⟨54, 0, 2, 0⟩ := by decide
/-- V46, V47. -/
theorem test_blit_bmp : touched (blitBmp 8 8 v40 ⟨54, 2, 2, 8⟩ ⟨3, 4⟩ blank) =
      [(3, 4, ⟨255, 0, 0, 255⟩), (4, 4, ⟨255, 255, 255, 255⟩), (3, 5, ⟨0, 0, 255, 255⟩), (4, 5, ⟨0, 255, 0, 255⟩)] ∧
    touched (blitBmp 8 8 v40 ⟨54, 2, 2, 8⟩ ⟨7, 7⟩ blank) = [(7, 7, ⟨255, 0, 0, 255⟩)] := by decide
/-- V54. -/
theorem test_composite : composite ink 1 = ⟨0, 0, 0, 255⟩ ∧ composite ink 64 = ⟨50, 25, 12, 255⟩ ∧
    composite ink 127 = ⟨99, 49, 24, 255⟩ ∧ composite ink 254 = ⟨199, 99, 49, 255⟩ ∧
    composite ink 255 = ink := by decide

/-- The samples of V55. -/
def v55 : List Sample := [⟨0, -1, 0⟩, ⟨1, -1, 255⟩, ⟨0, 0, 128⟩, ⟨1, 0, 64⟩, ⟨1, 0, 255⟩, ⟨-3, 0, 255⟩]
/-- V55. -/
theorem test_blit_glyph : touched (blitGlyph 8 8 v55 ⟨2, 1⟩ ink blank) =
    [(2, 0, ⟨0, 0, 0, 255⟩), (3, 0, ink), (2, 1, ⟨100, 50, 25, 255⟩), (3, 1, ink)] := by decide

/-! ### The host's side -/

/-- 70_reset_and_hazards.md R305: an odd trailing byte; R304: an image one word too long is rejected. -/
theorem test_loader : (State.boot (small 2) [0x34, 0x12, 0x56]).map (·.mem) = some [(0, 0x34), (1, 0x12), (2, 0x56)] ∧
    State.boot (small 1) [0x34, 0x12, 0x56] = none := by decide

/-! ### Witnesses: a concrete state and operands that meet all hypotheses of a statement, for each of its clauses -/

/-- A machine of 64 words that stands at `mov R3, 0x1234` and then `hlt`. -/
def standing : State := prog 64 0 [0x0001, 0xFF03, 0x1234, 0x00FF]

/-- One instruction of each constructor, as decoded. -/
def samples : List Instr :=
  [.nop, .mov (op 0xFF00) (op 1), .add (op 0xFF01) (op 2), .sub (op 0xFF02) (op 3), .mul (op 0xFF03) (op 4),
   .div (op 0xFF04) (op 5), .inc (op 0xFF05), .load (op 0xFF06) (op 6), .store (op 8) (op 0xFF18), .jmp (op 9),
   .cmp (op 0xFF18) (op 10), .je (op 11), .jne (op 12), .call (op 0), .hlt]

theorem witness_EncodedInstructionsDecodeToThemselves :
    Tables.decided.wf ∧ samples.length = 15 ∧ ∀ i ∈ samples, i.wf Tables.decided := by decide
theorem witness_DecodedWordsAreTheEncodingUpToTheHighByte : Tables.decided.wf ∧
    decode Tables.decided [0xAB06, 0xFF17, 0x0001] = .ok (.inc (op 0xFF17), [0x0001]) := by decide
theorem witness_HighByteOfTheOpcodeWordIsIgnored : (0x1200 : Word).toNat % 256 = (0x0000 : Word).toNat % 256 := by decide
theorem witness_TagsSelectTheirOpcodeAndArity :
    (0x0E ≤ (0xFF0E : Word).toNat % 256 ∧ (0xFF0E : Word).toNat % 256 ≤ 0xFE) ∧
    (0x0E ≤ (0x00FE : Word).toNat % 256 ∧ (0x00FE : Word).toNat % 256 ≤ 0xFE) := by decide
theorem witness_RegisterEncodingsClassifyByStorageIndex :
    (0xFF00 ≤ (0xFF00 : Word).toNat ∧ (0xFF00 : Word).toNat ≤ 0xFF18) ∧
    (0xFF00 ≤ (0xFF18 : Word).toNat ∧ (0xFF18 : Word).toNat ≤ 0xFF18) ∧
    ((0xFEFF : Word).toNat < 0xFF00 ∨ 0xFF18 < (0xFEFF : Word).toNat) ∧
    ((0xFF19 : Word).toNat < 0xFF00 ∨ 0xFF18 < (0xFF19 : Word).toNat) := by decide
theorem witness_StepRunsTheDecodedInstruction : standing.run = .running ∧
    decode standing.cfg.tables standing.window = .ok (.mov (op 0xFF03) (op 0x1234), []) ∧
    (2 < 3 ∧ standing.pc.toNat + 2 < standing.cfg.memWords) ∧
    (0 < 3 ∧ (s0 64 63).pc.toNat + 0 < (s0 64 63).cfg.memWords) := by decide
theorem witness_FetchOutsideMemoryIsFatal : (s0 8 8).run = .running ∧ (s0 8 8).cfg.memWords ≤ (s0 8 8).pc.toNat ∧
    (s0 8 7).run = .running ∧ (s0 8 7).pc.toNat < (s0 8 7).cfg.memWords := by decide
theorem witness_ArgumentOutsideMemoryIsFatal :
    (let s := prog 8 7 [0, 0, 0, 0, 0, 0, 0, 0x0001]
     s.run = .running ∧ s.pc.toNat < s.cfg.memWords ∧
       s.cfg.tables.opcodeOf (lo8 (s.mem.readWord s.pc.toNat)) = some .mov ∧
       1 ≤ Opcode.mov.arity ∧ s.pc.toNat + (1 - 1) < s.cfg.memWords ∧ s.cfg.memWords ≤ s.pc.toNat + 1) ∧
    (let s := prog 8 6 [0, 0, 0, 0, 0, 0, 0x0001, 0xFF00]
     s.run = .running ∧ s.pc.toNat < s.cfg.memWords ∧
       s.cfg.tables.opcodeOf (lo8 (s.mem.readWord s.pc.toNat)) = some .mov ∧
       2 ≤ Opcode.mov.arity ∧ s.pc.toNat + (2 - 1) < s.cfg.memWords ∧ s.cfg.memWords ≤ s.pc.toNat + 2) ∧
    (let s := s0 8 7
     s.run = .running ∧ s.pc.toNat < s.cfg.memWords ∧
       s.cfg.tables.opcodeOf (lo8 (s.mem.readWord s.pc.toNat)) = some .nop ∧ Opcode.nop.arity = 0 ∧
       s.pc.toNat + 1 = s.cfg.memWords) := by decide
theorem witness_UnknownOpcodeIsAReportedOneWordNop :
    let s := prog 8 7 [0, 0, 0, 0, 0, 0, 0, 0x0042]
    s.run = .running ∧ s.pc.toNat < s.cfg.memWords ∧
      s.cfg.tables.opcodeOf (lo8 (s.mem.readWord s.pc.toNat)) = none ∧ s.pc.toNat + 1 ≤ 65535 := by decide
theorem witness_DefaultAdvanceOrPcOverflow_unknown_opcode :
    let s := { (s0 65536 0xFFFF) with mem := Memory.writeWord [] 0xFFFF 0x0042 }
    s.run = .running ∧ s.pc.toNat < s.cfg.memWords ∧
      s.cfg.tables.opcodeOf (lo8 (s.mem.readWord s.pc.toNat)) = none ∧ 65535 < s.pc.toNat + 1 := by decide
theorem witness_HaltedAndFatalAreAbsorbing : standing.halt.run ≠ .running ∧
    (failed standing .dataBounds 64 none).run ≠ .running ∧ (standing.halt.host .reset).run = .running := by decide
theorem witness_ResetLeavesTheSpecifiedValues : 63 < (small 64).vbufLen ∧ ¬ 64 < (small 64).vbufLen := by decide
theorem witness_ResetIsLegal : (small 1).wf ∧ (small 65536).wf := by decide
theorem witness_StepKeepsTheStateLegal : standing.Legal ∧ ∃ t, step standing = .next t := ⟨by decide, _, rfl⟩
theorem witness_HostMovesKeepTheStateLegal : standing.Legal ∧ (small 64).wf ∧
    ∃ s, State.boot (small 64) [0x06, 0x00, 0x00] = some s := ⟨by decide, by decide, _, rfl⟩
theorem witness_InstructionsWriteOnlyTheirDestinationRegister : (∃ t, exec (.inc (op 0xFF03)) standing = .next t) ∧
    destReg (.inc (op 0xFF03)) ≠ some (.gen 2) ∧ destReg (.inc (op 0xFF18)) ≠ some .k0 := ⟨⟨_, rfl⟩, by decide, by decide⟩
theorem witness_NoStepChangesTheInputRegister : ∃ t, step (prog 8 0 [0x0006, 0xFF18]) = .next t := ⟨_, rfl⟩
theorem witness_FlagsAreWrittenByCmpAndReadByJumpsAlone : ∃ t, exec (.inc (op 0xFF03)) standing = .next t ∧
    (Instr.inc (op 0xFF03)).opcode ≠ .cmp ∧ (Instr.inc (op 0xFF03)).opcode ≠ .je ∧
    (Instr.inc (op 0xFF03)).opcode ≠ .jne := ⟨_, rfl, by decide⟩
theorem witness_OnlyTheStoredWordOfMemoryChanges :
    (∃ t, exec (.store (op 0x41) (op 0xFF00)) standing = .next t) ∧ (∃ t, exec .nop standing = .next t) ∧
    63 ≠ 2 * effectiveIndex (op 0x41).raw ∧ 63 ≠ 2 * effectiveIndex (op 0x41).raw + 1 ∧
    66 ≠ 2 * effectiveIndex (op 0x41).raw ∧ 66 ≠ 2 * effectiveIndex (op 0x41).raw + 1 := ⟨⟨_, rfl⟩, ⟨_, rfl⟩, by decide⟩
theorem witness_OnlyCallChangesTheVideoBuffer :
    (∃ t, exec (.call (op 0)) (s0 65536 65533) = .next t) ∧ (s0 65536 65533).pc.toNat + 2 ≤ 65535 ∧
    (∃ t, exec (.call (op 0)) (s0 65536 65534) = .next t) ∧ 65535 < (s0 65536 65534).pc.toNat + 2 ∧
    (Instr.call (op 0)).opcode = .call ∧ (∃ t, exec .nop standing = .next t) ∧ Instr.nop.opcode ≠ .call :=
  ⟨⟨_, rfl⟩, by decide, ⟨_, rfl⟩, by decide, rfl, ⟨_, rfl⟩, by decide⟩
theorem witness_OnlyJumpsLeaveTheSequence :
    (∃ t, exec (.call (op 4)) standing = .next t) ∧ ∃ t, exec .nop (s0 65536 0xFFFF) = .next t := ⟨⟨_, rfl⟩, _, rfl⟩
theorem witness_FatalBoundsErrorsChangeNothingElse : (s0 8 8).run = .running ∧
    ∃ t, step (s0 8 8) = .next t ∧ t.run = .fatal ∧ t.fatal.cause ≠ .pcOverflow := ⟨rfl, _, rfl, by decide⟩
theorem witness_DefaultAdvanceOrPcOverflow : takesDefaultAdvance (s0 65536 0xFFFE) .nop ∧
    (s0 65536 0xFFFE).pc.toNat + (1 + Opcode.nop.arity) ≤ 65535 ∧ takesDefaultAdvance (s0 65536 0xFFFF) .nop ∧
    65535 < (s0 65536 0xFFFF).pc.toNat + (1 + Opcode.nop.arity) ∧
    takesDefaultAdvance (s0 64 0) (.load (op 0xFF03) (op 0x7F)) ∧ takesDefaultAdvance (s0 64 0) (.je (op 9)) ∧
    (s0 65536 0xFFFF).cfg.memWords ≤ 65536 ∧ (s0 65536 0xFFFF).run = .running ∧
    ∃ t, step (s0 65536 0xFFFF) = .next t ∧ t.run = .fatal ∧ t.fatal.cause = .pcOverflow :=
  ⟨trivial, by decide, trivial, by decide, Or.inr (Or.inr (by decide)), by unfold takesDefaultAdvance; decide,
    by decide, rfl, _, rfl, by decide⟩
theorem witness_ReportingStepsHaveNoEffect : (∃ t, step (prog 8 0 [0x0042]) = .next t ∧ t.result.report ≠ none) ∧
    ∃ t u, takesDefaultAdvance (s0 65536 0xFFFD) (.div (op 0xFF00) (op 0)) ∧
      exec (.div (op 0xFF00) (op 0)) (s0 65536 0xFFFD) = .next t ∧ t.result.report = some .divideByZero ∧
      t.run = .fatal ∧ exec (.div (op 0xFF00) (op 0)) { s0 65536 0xFFFD with pc := 0 } = .next u :=
  ⟨⟨_, rfl, by decide⟩, _, _, trivial, rfl, by decide, by decide, rfl⟩
theorem witness_StoredWordIsFetchedNext : standing.mem.wf ∧ (op 0xFF18).reg = some .k0 ∧
    effectiveIndex (op 0x7F).raw < standing.cfg.memWords ∧ (63 : Word).toNat = effectiveIndex (op 0x7F).raw := by decide
theorem witness_MovWritesTheRawImmediate : (op 0xFF17).reg = some (.vid 15) ∧ Reg.vid 15 ≠ .k0 ∧
    (s0 65536 65532).pc.toNat + 3 ≤ 65535 ∧ (op 0xFF19).reg = none ∧ (op 0xFF18).reg = some .k0 := by decide
theorem witness_AddWrapsModulo65536 : (op 0xFF17).reg = some (.vid 15) ∧ Reg.vid 15 ≠ .k0 ∧
    (s0 65536 65532).pc.toNat + 3 ≤ 65535 ∧ (op 0xFF19).reg = none ∧ (op 0xFF18).reg = some .k0 := by decide
theorem witness_SubWrapsModulo65536 : (op 0xFF17).reg = some (.vid 15) ∧ Reg.vid 15 ≠ .k0 ∧
    (s0 65536 65532).pc.toNat + 3 ≤ 65535 ∧ (op 0xFF19).reg = none ∧ (op 0xFF18).reg = some .k0 := by decide
theorem witness_MulKeepsTheLowSixteenBits : (op 0xFF17).reg = some (.vid 15) ∧ Reg.vid 15 ≠ .k0 ∧
    (s0 65536 65532).pc.toNat + 3 ≤ 65535 ∧ (op 0xFF19).reg = none ∧ (op 0xFF18).reg = some .k0 := by decide
theorem witness_IncWrapsModulo65536 : (op 0xFF17).reg = some (.vid 15) ∧ Reg.vid 15 ≠ .k0 ∧
    (s0 65536 65533).pc.toNat + 2 ≤ 65535 ∧ (op 0xFF19).reg = none ∧ (op 0xFF18).reg = some .k0 := by decide
theorem witness_DivIsTheUnsignedQuotient : (op 0xFF00).reg = some (.gen 0) ∧ Reg.gen 0 ≠ .k0 ∧
    (s0 64 0).pc.toNat + 3 ≤ 65535 ∧ (op 1).raw ≠ 0 ∧ (op 0).raw = 0 := by decide
theorem witness_LoadReadsTheWordAtHalfTheOffset : (op 0xFF03).reg = some (.gen 3) ∧ Reg.gen 3 ≠ .k0 ∧
    (op 0x7F).raw.toNat / 2 < (s0 64 0).cfg.memWords ∧ (s0 64 0).pc.toNat + 3 ≤ 65535 ∧
    (s0 64 0).cfg.memWords ≤ (op 0x80).raw.toNat / 2 := by decide
theorem witness_StoreWritesTheWordAtHalfTheOffset : (op 0xFF18).reg = some .k0 ∧
    (op 0x7F).raw.toNat / 2 < standing.cfg.memWords ∧ standing.mem.wf ∧ standing.pc.toNat + 3 ≤ 65535 ∧
    standing.cfg.memWords ≤ (op 0x80).raw.toNat / 2 ∧ (op 5).reg = none := by decide
theorem witness_LoadAfterStoreGivesTheStoredValue : standing.mem.wf ∧ (op 0xFF00).reg = some (.gen 0) ∧
    effectiveIndex (op 0x41).raw < standing.cfg.memWords ∧ (op 0xFF03).reg = some (.gen 3) ∧ Reg.gen 3 ≠ .k0 ∧
    ∃ t, exec (.store (op 0x41) (op 0xFF00)) standing = .next t ∧ t.cfg = t.cfg ∧
      t.mem.readWord (effectiveIndex (op 0x41).raw) = t.mem.readWord (effectiveIndex (op 0x41).raw) :=
  ⟨by decide, by decide, by decide, by decide, by decide, _, rfl, rfl, rfl⟩
theorem witness_CmpSetsZIffEqual : (s0 64 6).pc.toNat + 3 ≤ 65535 ∧ (op 0xFF18).reg = some .k0 ∧ (op 7).reg = none := by
  decide
theorem witness_JmpSetsTheCounter : standing.run = .running ∧ standing.cfg.memWords ≤ (op 64).raw.toNat := by decide
theorem witness_ConditionalJumpsFollowZ : ({ (s0 64 6) with flags := 1 } : State).flags.getLsbD 0 = true ∧
    (s0 64 6).flags.getLsbD 0 = false ∧ (s0 64 6).pc.toNat + 2 ≤ 65535 := by decide
theorem witness_TakenJumpsSetTheCounterAlone :
    (let s := prog 64 2 [0, 0, 0x0009, 0x0002]
     s.run = .running ∧ decode s.cfg.tables s.window = .ok (.jmp (op 2), [0]) ∧ (op 2).raw = s.pc) ∧
    (let s := { prog 64 2 [0, 0, 0x000B, 0x0002] with flags := 1 }
     s.run = .running ∧ decode s.cfg.tables s.window = .ok (.je (op 2), [0]) ∧ s.flags.getLsbD 0 = true ∧
       (op 2).raw = s.pc) ∧
    (let s := prog 64 2 [0, 0, 0x000C, 0x0002]
     s.run = .running ∧ decode s.cfg.tables s.window = .ok (.jne (op 2), [0]) ∧ s.flags.getLsbD 0 = false ∧
       (op 2).raw = s.pc) := by decide
theorem witness_HltAloneHalts : ∃ t, exec .hlt standing = .next t ∧ standing.run ≠ .halted ∧ t.run = .halted :=
  ⟨_, rfl, by decide⟩
theorem witness_NopOnlyAdvances : (s0 65536 65534).pc.toNat + 1 ≤ 65535 := by decide
theorem witness_UnknownFunctionIsAReportedNop : standing.cfg.tables.fnOf (op 7).raw = none ∧
    standing.pc.toNat + 2 ≤ 65535 := by decide
theorem witness_DrawArgumentsAreGatheredUnsigned : standing.cfg.tables.varg = decidedVarg := by decide
/-- The bottom right cell of the canvas, which draw functions may paint. -/
abbrev corner (s : State) : Prop := 7 < s.cfg.canvasW ∧ 7 < s.cfg.canvasH ∧
  s.vbuf[7 * s.cfg.canvasW + 7]? = some { r := 0, g := 0, b := 0, a := 0 }

theorem witness_ClearAndFillScreenWriteEveryCell : Calls (op 0) .clearScreen standing ∧
    Calls (op 1) .fillScreen standing ∧ 63 < standing.vbuf.length ∧ corner standing := by unfold Calls; decide
theorem witness_FillRectPaintsTheCenteredSquare : Calls (op 4) .fillRect standing ∧ corner standing := by
  unfold Calls; decide
theorem witness_DrawLinePaintsADiscAtEveryStep : Calls (op 2) .drawLine standing ∧ corner standing := by
  unfold Calls; decide
theorem witness_FillQuadPaintsBothTriangles : Calls (op 5) .fillQuad standing ∧ corner standing := by
  unfold Calls; decide
/-- A machine with the bitmap of V40 and the provider of V55. -/
def equipped : State := standing.host (.resources (some v40) [(0x41, v55)])
theorem witness_DrawBmpCopiesTheBottomUpRows : Calls (op 3) .drawBmp equipped ∧ standing.cfg.bmpRes = none ∧
    equipped.cfg.bmpRes = some v40 ∧ parseBmp v40 = some ⟨54, 2, 2, 8⟩ ∧ parseBmp (v40.take 67) = none := by
  unfold Calls; decide
/-- A machine whose bitmap is V53, an empty picture. -/
def blankPicture : State := standing.host (.resources (some (v40.set 18 0)) [])
theorem witness_AcceptedBitmapsAreReadInBounds :
    (parseBmp (v40.take 68) = some ⟨54, 2, 2, 8⟩ ∧ 1 < 2) ∧
    (Calls (op 3) .drawBmp standing ∧ standing.cfg.bmpRes = none) ∧ parseBmp (v40.take 67) = none ∧
    Calls (op 3) .drawBmp blankPicture ∧ blankPicture.cfg.bmpRes = some (v40.set 18 0) ∧
    parseBmp (v40.set 18 0) = some ⟨54, 0, 2, 0⟩ := by unfold Calls; decide
/-- The header fields of V40 and V52 (95_test_vectors.md section 2.6), as the statement reads them. -/
theorem test_header_fields : field32 v40 10 = 54 ∧ signed32 (field32 v40 18) = 2 ∧ signed32 (field32 v40 22) = 2 ∧
    field16 v40 28 = 24 ∧
    signed32 (field32 ((((v40.set 22 0xFE).set 23 0xFF).set 24 0xFF).set 25 0xFF) 22) = -2 := by decide
theorem witness_DrawCharacterKeepsTheLastSample : Calls (op 6) .drawCharacter equipped ∧
    equipped.cfg.glyph equipped.argChar = none ∧
    (equipped.setReg (.vid 12) 0x41).cfg.glyph (equipped.setReg (.vid 12) 0x41).argChar = some v55 ∧
    v55 = v55.take 4 ++ ⟨1, 0, 255⟩ :: [⟨-3, 0, 255⟩] := by unfold Calls; decide
theorem witness_OnlyTwoDrawFunctionsReadTheResources : (∃ t, exec (.call (op 2)) standing = .next t) ∧
    ∀ a, Instr.call (op 2) = .call a →
      standing.cfg.tables.fnOf a.raw ≠ some .drawBmp ∧ standing.cfg.tables.fnOf a.raw ≠ some .drawCharacter :=
  ⟨⟨_, rfl⟩, by rintro a h; cases h; decide⟩
theorem witness_StepsReachTheEndPoint : (steps ⟨0, 0⟩ ⟨3, 2⟩)[2]? = some ⟨2, 1⟩ ∧
    (steps ⟨0, 0⟩ ⟨3, 2⟩)[2 + 1]? = some ⟨3, 2⟩ ∧
    max ((3 : Int) - 0).natAbs ((2 : Int) - 0).natAbs ≤ 3 ∧
    ((⟨10, 0⟩ : Point).y = (⟨0, 0⟩ : Point).y ∧ (⟨2, 3⟩ : Point).x = (⟨2, 6⟩ : Point).x ∧
      ((4 : Int) - 0).natAbs = ((-4 : Int) - 0).natAbs) := by decide
theorem witness_LoaderPlacesLittleEndianWords :
    ((small 1).memWords < (([1, 2, 3] : List Byte).length + 1) / 2) ∧
    ((([1, 2, 3] : List Byte).length + 1) / 2 ≤ (small 2).memWords) ∧
    (([1, 2, 3] : List Byte)[2 * 0]? = some 1 ∧ ([1, 2, 3] : List Byte)[2 * 0 + 1]? = some 2) ∧
    (([1, 2, 3] : List Byte)[2 * 1]? = some 3 ∧ ([1, 2, 3] : List Byte)[2 * 1 + 1]? = none) ∧
    ([1, 2, 3] : List Byte)[2 * 2]? = none := by decide
theorem witness_HostPortsTouchK0AndReadTheCanvas : Reg.gen 0 ≠ .k0 ∧
    standing.vbuf.length = standing.cfg.vbufLen ∧
    standing.vbuf[63]? = some { r := 0, g := 0, b := 0, a := 0 } := by decide

end Sys2Proof.Tests
end

section
/-! The state after reset (10_state.md R40), read field by field, and the obligation about it. -/

namespace Sys2Proof.Machine

@[simp] theorem Memory.readByte_nil (a : Nat) : Memory.readByte [] a = 0 := rfl

@[simp] theorem Memory.readWord_nil (i : Nat) : Memory.readWord [] i = 0 := by
  simp [Memory.readWord, wordOf]

@[simp] theorem State.resetOf_get (c : Config) (r : Reg) : (State.resetOf c).get r = 0 := by
  simp [State.get, State.resetOf]

@[simp] theorem State.resetOf_pc (c : Config) : (State.resetOf c).pc = 0 := rfl

@[simp] theorem State.resetOf_flags (c : Config) : (State.resetOf c).flags = 0 := rfl

@[simp] theorem State.resetOf_run (c : Config) : (State.resetOf c).run = .running := rfl

@[simp] theorem State.resetOf_mem (c : Config) : (State.resetOf c).mem = [] := rfl

@[simp] theorem State.resetOf_vbuf (c : Config) :
    (State.resetOf c).vbuf = List.replicate c.vbufLen { r := 0, g := 0, b := 0, a := 0 } := rfl

theorem State.resetOf_readWord (c : Config) (i : Nat) : (State.resetOf c).mem.readWord i = 0 := by simp

theorem State.resetOf_vbuf_length (c : Config) : (State.resetOf c).vbuf.length = c.vbufLen := by simp

theorem State.resetOf_vbuf_getElem? (c : Config) {i : Nat} (hi : i < c.vbufLen) :
    (State.resetOf c).vbuf[i]? = some { r := 0, g := 0, b := 0, a := 0 } := by
  rw [State.resetOf_vbuf, List.getElem?_replicate_of_lt hi]

/-- Settles O13: one lemma per row of 10_state.md R40. -/
theorem resetLeavesTheSpecifiedValues : Obligations.ResetLeavesTheSpecifiedValues := fun c =>
  ⟨State.resetOf_get c, State.resetOf_pc c, State.resetOf_flags c, State.resetOf_run c,
    State.resetOf_readWord c, State.resetOf_vbuf_length c, fun _ hi => State.resetOf_vbuf_getElem? c hi⟩

end Sys2Proof.Machine
end

section
/-! The decoder and the encoder (30_encoding.md): what the opcode word selects, and what a register encoding is. The laws
of the tables and of the decoder come first, then the obligations of the family. -/

namespace Sys2Proof

theorem lo8_eq_lo8_iff {w w' : Word} : lo8 w = lo8 w' ↔ w.toNat % 256 = w'.toNat % 256 := by
  rw [← BitVec.toNat_inj, lo8_toNat, lo8_toNat]

@[simp] theorem hi8_opcodeWord (T : Tables) (op : Opcode) : hi8 (opcodeWord T op) = 0 := hi8_wordOf _ _

theorem head?_encode (T : Tables) (i : Instr) : (encode T i).head? = some (opcodeWord T i.opcode) := rfl

/-! ### The opcode word -/

theorem decode_cons_of_opcodeOf_some {T : Tables} {w : Word} {op : Opcode} (h : T.opcodeOf (lo8 w) = some op)
    (ws : List Word) : decode T (w :: ws) = decodeArgs T op ws := by
  simp only [decode, h]

theorem decode_cons_of_opcodeOf_none {T : Tables} {w : Word} (h : T.opcodeOf (lo8 w) = none) (ws : List Word) :
    decode T (w :: ws) = .error (.unknownOpcode (lo8 w)) := by
  simp only [decode, h]

/-- The decoder sees the opcode word through its low byte alone (30_encoding.md R81). -/
theorem decode_cons_congr {w w' : Word} (h : lo8 w = lo8 w') (T : Tables) (ws : List Word) :
    decode T (w :: ws) = decode T (w' :: ws) := by
  simp only [decode, h]

/-- Where no argument word is missing, an opcode takes its arity of them, in order (30_encoding.md R84, R86). -/
theorem decodeArgs_cons_cons (T : Tables) (op : Opcode) (a b : Word) (rest : List Word) :
    ∃ i, decodeArgs T op (a :: b :: rest) = .ok (i, (a :: b :: rest).drop op.arity) ∧ i.opcode = op ∧
      i.operands.map Operand.raw = [a, b].take op.arity := by
  cases op <;> exact ⟨_, rfl, rfl, rfl⟩

theorem Tables.opcodeOf_of_mem {T : Tables} (hT : T.wf) {tag : Byte} {op : Opcode} (h : (tag, op) ∈ T.opc) :
    T.opcodeOf tag = some op :=
  lookup_of_mem_nodup hT.1.1 h

/-- An entry of `OPC` with the argument count of its opcode: a row of 30_encoding.md R83. -/
def opcodeRow (entry : Byte × Opcode) : Byte × Opcode × Nat := (entry.1, entry.2, entry.2.arity)

/-- A row of the opcode table decodes to its opcode and arity, under any injective tables and any high byte. -/
theorem decode_opcodeRow {T : Tables} (hT : T.wf) {row : Byte × Opcode × Nat} (hrow : row ∈ T.opc.map opcodeRow)
    (hi : Byte) (a b : Word) (rest : List Word) :
    ∃ i, decode T (wordOf row.1 hi :: a :: b :: rest) = .ok (i, (a :: b :: rest).drop row.2.2) ∧
      i.opcode = row.2.1 ∧ i.operands.map Operand.raw = [a, b].take row.2.2 := by
  obtain ⟨⟨tag, op⟩, hmem, rfl⟩ := List.mem_map.1 hrow
  have htag : T.opcodeOf (lo8 (wordOf tag hi)) = some op := by
    rw [lo8_wordOf]
    exact Tables.opcodeOf_of_mem hT hmem
  rw [opcodeRow, decode_cons_of_opcodeOf_some htag]
  exact decodeArgs_cons_cons T op a b rest

/-- The tags between `call`'s and `hlt`'s have no entry (30_encoding.md R83). -/
theorem decided_opcodeOf_eq_none {tag : Byte} (hlo : 0x0E ≤ tag.toNat) (hhi : tag.toNat ≤ 0xFE) :
    Tables.decided.opcodeOf tag = none := by
  have hrows : ∀ p ∈ decidedOpc, p.1.toNat < 0x0E ∨ 0xFE < p.1.toNat := by decide
  rw [Option.eq_none_iff_forall_ne_some]
  intro op hop
  have : tag.toNat < 0x0E ∨ 0xFE < tag.toNat := hrows _ (lookup_some_mem hop)
  omega

/-! ### Register encodings -/

theorem Reg.mem_all (r : Reg) : r ∈ Reg.all := by
  cases r <;> simp [Reg.all]

end Sys2Proof

namespace Sys2Proof.Machine

/-- The three bands R, V, K cover the 25 storage indices (10_state.md R21). -/
theorem regIndex_surjective : Function.Surjective regIndex := fun i => by
  by_cases hgen : i.val < 8
  · exact ⟨.gen ⟨i.val, hgen⟩, rfl⟩
  by_cases hvid : i.val < 24
  · exact ⟨.vid ⟨i.val - 8, by omega⟩, Fin.ext (Nat.add_sub_of_le (Nat.le_of_not_lt hgen))⟩
  · exact ⟨.k0, Fin.ext (show 24 = i.val by omega)⟩

/-- Every entry of the decided `REGENC` is `0xFF00` plus the storage index (10_state.md R21, D4). -/
theorem toNat_of_mem_decidedRegenc : ∀ p ∈ decidedRegenc, p.1.toNat = 0xFF00 + (regIndex p.2).val := by decide

/-- The classification of 30_encoding.md R87, under the decided encodings. -/
theorem decided_regOf_eq_some_iff {w : Word} {r : Reg} :
    Tables.decided.regOf w = some r ↔ w.toNat = 0xFF00 + (regIndex r).val := by
  constructor
  · intro h
    exact toNat_of_mem_decidedRegenc _ (lookup_some_mem h)
  · intro h
    obtain ⟨_, ⟨hkeys, _, hcover⟩, _⟩ := Tables.decided_wf
    obtain ⟨⟨a, q⟩, hmem, rfl⟩ := List.mem_map.1 (hcover r (Reg.mem_all r))
    have ha : a = w := BitVec.eq_of_toNat_eq ((toNat_of_mem_decidedRegenc _ hmem).trans h.symm)
    exact ha ▸ lookup_of_mem_nodup hkeys hmem

theorem exists_decided_regOf {w : Word} (hlo : 0xFF00 ≤ w.toNat) (hhi : w.toNat ≤ 0xFF18) :
    ∃ r, Tables.decided.regOf w = some r ∧ (regIndex r).val = w.toNat - 0xFF00 := by
  obtain ⟨r, hr⟩ := regIndex_surjective ⟨w.toNat - 0xFF00, by omega⟩
  have hidx : (regIndex r).val = w.toNat - 0xFF00 := by rw [hr]
  exact ⟨r, decided_regOf_eq_some_iff.2 (by omega), hidx⟩

theorem decided_regOf_eq_none {w : Word} (h : w.toNat < 0xFF00 ∨ 0xFF18 < w.toNat) :
    Tables.decided.regOf w = none := by
  rw [Option.eq_none_iff_forall_ne_some]
  intro r hr
  have := decided_regOf_eq_some_iff.1 hr
  omega

/-! ### The obligations -/

/-- Settles O3: the decoder reads the opcode word through `lo8`, and the encoder's opcode word has the high byte 0. -/
theorem highByteOfTheOpcodeWordIsIgnored : Obligations.HighByteOfTheOpcodeWordIsIgnored := by
  refine ⟨fun T w w' rest h => decode_cons_congr (lo8_eq_lo8_iff.2 h) T rest, fun T i => ?_⟩
  refine ⟨opcodeWord T i.opcode, head?_encode T i, ?_⟩
  rw [← hi8_toNat, hi8_opcodeWord]
  rfl

/-- Settles O4: the statement's rows are the entries of the decided `OPC`, each with its opcode's arity. -/
theorem tagsSelectTheirOpcodeAndArity : Obligations.TagsSelectTheirOpcodeAndArity := by
  refine ⟨Tables.decided_wf, fun row hrow => decode_opcodeRow Tables.decided_wf hrow, fun w rest hlo hhi => ?_⟩
  rw [← lo8_toNat] at hlo hhi
  exact decode_cons_of_opcodeOf_none (decided_opcodeOf_eq_none hlo hhi) rest

/-- Settles O5: the classification under the decided encodings, and `decode_ok`'s well-formedness under any tables. -/
theorem registerEncodingsClassifyByStorageIndex : Obligations.RegisterEncodingsClassifyByStorageIndex := by
  refine ⟨Tables.decided_wf, fun w => ⟨fun ⟨hlo, hhi⟩ => exists_decided_regOf hlo hhi, decided_regOf_eq_none⟩, ?_⟩
  intro T ws rest i h o ho
  obtain ⟨_, _, _, hwf⟩ := decode_ok h
  exact hwf o ho

end Sys2Proof.Machine
end

section
/-! The step cycle (40_step_cycle.md): what one step does by what its window decodes to, what many steps do from a state
that a step keeps, and what the default advance and an entry into FATAL by it leave. Each obligation of the family
follows its lemmas. -/

namespace Sys2Proof.Machine

/-! ### The window -/

/-- Inside memory the window begins with the word at the counter. -/
theorem State.window_of_lt {s : State} (h : s.pc.toNat < s.cfg.memWords) :
    s.window = s.mem.readWord s.pc.toNat :: s.wordsFrom 2 (s.pc.toNat + 1) := by
  rw [State.window, State.wordsFrom, if_neg (by omega)]

theorem State.window_of_ge {s : State} (h : s.cfg.memWords ≤ s.pc.toNat) : s.window = [] :=
  State.wordsFrom_of_ge h 3

/-- A fetch sees of a state its memory and the size of it. -/
theorem State.wordsFrom_congr {s t : State} (hcfg : t.cfg.memWords = s.cfg.memWords) (hmem : t.mem = s.mem) :
    ∀ n i, t.wordsFrom n i = s.wordsFrom n i
  | 0, _ => rfl
  | n + 1, i => by rw [State.wordsFrom, State.wordsFrom, hcfg, hmem, State.wordsFrom_congr hcfg hmem n]

/-- A jump moves the window to its target and changes nothing in memory. -/
theorem State.window_jump (s : State) (w : Word) : (s.jump w).window = s.wordsFrom 3 w.toNat :=
  State.wordsFrom_congr (by simp) (by simp) 3 w.toNat

/-! ### One step, by the run state and by what the window decodes to -/

theorem step_of_not_running {s : State} (h : s.run ≠ .running) : step s = .next s.idle := by
  rcases step_cases s with ⟨_, hstep⟩ | ⟨hrun, _⟩
  · exact hstep
  · contradiction

theorem step_of_decode_ok {s : State} {i : Instr} {rest : List Word} (hrun : s.run = .running)
    (hdec : decode s.cfg.tables s.window = .ok (i, rest)) : step s = exec i s := by
  simp only [step, hrun, hdec]

theorem step_of_decode_missing {s : State} {slot : Nat} (hrun : s.run = .running)
    (hdec : decode s.cfg.tables s.window = .error (.missing slot)) :
    step s = .next (s.raiseFatal (s.missingWord slot) none) := by
  simp only [step, hrun, hdec]

theorem step_of_fetch_outside {s : State} (hrun : s.run = .running) (h : s.cfg.memWords ≤ s.pc.toNat) :
    step s = .next (s.raiseFatal { cause := .fetchBounds, info := s.pc.toNat } none) :=
  step_of_decode_missing (slot := 0) hrun (by rw [State.window_of_ge h]; rfl)

theorem step_of_opcodeOf_none {s : State} (hrun : s.run = .running) (hpc : s.pc.toNat < s.cfg.memWords)
    (hop : s.cfg.tables.opcodeOf (lo8 (s.mem.readWord s.pc.toNat)) = none) :
    step s = .next (s.advance 1 (some .unknownOpcode)) := by
  simp only [step, hrun, State.window_of_lt hpc, decode_cons_of_opcodeOf_none hop, execInvalid, State.skip]

/-! ### Many steps -/

theorem core_run_succ {s t : State} (h : step s = .next t) (n : Nat) :
    Sys2Proof.core.run (n + 1) s = Sys2Proof.core.run n t := by
  have hcore : Sys2Proof.core.step s = .next t := h
  simp only [Host.Core.run, hcore]

/-- Once a step answers a state that the next step keeps, every later step answers it too. -/
theorem core_run_of_step_fixed {s t : State} (hs : step s = .next t) (ht : step t = .next t) (n : Nat) :
    Sys2Proof.core.run (n + 1) s = .next t := by
  induction n generalizing s with
  | zero => exact core_run_succ hs 0
  | succ n ih => rw [core_run_succ hs, ih ht]

/-! ### Fetch bounds, absorbing run states, taken jumps -/

/-- Settles O8: outside memory the window is empty, inside it begins with the word at the counter. -/
theorem fetchOutsideMemoryIsFatal : Obligations.FetchOutsideMemoryIsFatal := by
  refine fun s hrun => ⟨fun hout => step_of_fetch_outside hrun hout, fun hin => ?_⟩
  rw [State.window_of_lt hin, List.head?_cons]

theorem State.host_run_of_ne_reset (s : State) {m : HostMove} (hm : m ≠ .reset) : (s.host m).run = s.run := by
  cases m with
  | key k => rfl
  | resources bmp glyphs => rfl
  | reset => contradiction

/-- Settles O11: an idle step answers a state that the next idle step keeps, and only the host's reset writes the run
state. -/
theorem haltedAndFatalAreAbsorbing : Obligations.HaltedAndFatalAreAbsorbing := by
  intro s hrun
  refine ⟨core_run_of_step_fixed (t := s.idle) (step_of_not_running hrun) (step_of_not_running hrun), fun m hm => ?_⟩
  by_contra hne
  exact hrun (State.host_run_of_ne_reset s hne ▸ hm)

/-- `i` is a jump to the word of `a` that `s` takes: unconditional, or its condition holds (40_step_cycle.md R115). -/
def TakesJump (s : State) (i : Instr) (a : Operand) : Prop :=
  i = .jmp a ∨ i = .je a ∧ s.flags.getLsbD 0 = true ∨ i = .jne a ∧ s.flags.getLsbD 0 = false

theorem exec_je {s : State} {z : Bool} (hz : s.z = z) (a : Operand) : exec (.je a) s = .next (jumpIf z a s) :=
  hz ▸ rfl

theorem exec_jne {s : State} {z : Bool} (hz : s.z = z) (a : Operand) : exec (.jne a) s = .next (jumpIf (!z) a s) :=
  hz ▸ rfl

theorem exec_of_takesJump {s : State} {i : Instr} {a : Operand} (h : TakesJump s i a) :
    exec i s = .next (s.jump a.raw) := by
  rcases h with rfl | ⟨rfl, hz⟩ | ⟨rfl, hz⟩
  · rfl
  · exact exec_je hz a
  · exact exec_jne hz a

/-- A decoded jump to its own address is decoded and taken again in the state it leaves. -/
theorem step_jump_self {s : State} {i : Instr} {a : Operand} {rest : List Word} (h : TakesJump s i a)
    (hrun : s.run = .running) (hdec : decode s.cfg.tables s.window = .ok (i, rest)) (hself : a.raw = s.pc) :
    step (s.jump s.pc) = .next (s.jump s.pc) := by
  have hdec' : decode (s.jump s.pc).cfg.tables (s.jump s.pc).window = .ok (i, rest) := by
    rw [State.window_jump]
    exact hdec
  have htakes : TakesJump (s.jump s.pc) i a := h
  rw [step_of_decode_ok (s := s.jump s.pc) hrun hdec', exec_of_takesJump htakes, hself]
  rfl

/-- Settles O39: a taken jump is `State.jump`, and one to its own address answers a state that the next step keeps. -/
theorem takenJumpsSetTheCounterAlone : Obligations.TakenJumpsSetTheCounterAlone := by
  intro s i a h
  have hexec : exec i s = .next (s.jump a.raw) := exec_of_takesJump h
  refine ⟨hexec, fun rest hrun hdec hself => ?_⟩
  have hstep : step s = .next (s.jump s.pc) := by rw [step_of_decode_ok hrun hdec, hexec, hself]
  exact core_run_of_step_fixed hstep (step_jump_self h hrun hdec hself)

/-! ### The default advance -/

/-- What the default advance leaves inside the counter's range. -/
theorem State.advance_fields_of_le {s : State} {n : Nat} (h : s.pc.toNat + n ≤ 65535) (rep : Option Report) :
    (s.advance n rep).pc.toNat = s.pc.toNat + n ∧ (s.advance n rep).run = s.run ∧
      (s.advance n rep).fatal = s.fatal ∧ (s.advance n rep).result.outcome = .advanced n := by
  rw [State.advance_of_le h]
  exact ⟨(BitVec.toNat_ofNat _ _).trans (Nat.mod_eq_of_lt (by omega)), rfl, rfl, rfl⟩

/-- What the default advance leaves past the counter's range. -/
theorem State.advance_fields_of_gt {s : State} {n : Nat} (h : 65535 < s.pc.toNat + n) (rep : Option Report) :
    (s.advance n rep).pc = s.pc ∧ (s.advance n rep).run = .fatal ∧
      (s.advance n rep).fatal = { cause := .pcOverflow, info := s.pc.toNat + n } ∧
      (s.advance n rep).result.outcome = .fatal .pcOverflow (s.pc.toNat + n) := by
  rw [State.advance_of_gt h]
  exact ⟨rfl, rfl, rfl, rfl⟩

/-- Wherever the counter of `s` stands, `i` leaves the same registers, flags, memory, `VBUF` and report, and takes the
default advance from there (40_step_cycle.md R114). -/
def AdvancesAnywhere (i : Instr) (s : State) : Prop :=
  ∃ (regs : RegFile) (flags : Word) (mem : Memory) (vbuf : VBuf) (rep : Option Report), ∀ p : Word,
    exec i { s with pc := p } =
      .next (State.advance { s with regs := regs, flags := flags, mem := mem, vbuf := vbuf, pc := p } (len i) rep)

/-- A register write does not see the counter. -/
theorem State.setReg_withPc (s : State) (d : Reg) (v : Word) (p : Word) :
    State.setReg { s with pc := p } d v = { s with regs := (s.setReg d v).regs, pc := p } := by
  unfold State.setReg
  split <;> rfl

/-- A draw function does not see the counter. -/
theorem runDraw_withPc (f : DrawFn) (s : State) (p : Word) : runDraw f { s with pc := p } = runDraw f s := by
  cases f <;> rfl

theorem AdvancesAnywhere.of_report {i : Instr} {s : State} {rep : Option Report}
    (h : ∀ p, exec i { s with pc := p } = .next (State.advance { s with pc := p } (len i) rep)) :
    AdvancesAnywhere i s :=
  ⟨s.regs, s.flags, s.mem, s.vbuf, rep, h⟩

theorem AdvancesAnywhere.of_setReg {i : Instr} {s : State} {d : Reg} {v : Word}
    (h : ∀ p, exec i { s with pc := p } = .next ((State.setReg { s with pc := p } d v).advance (len i) none)) :
    AdvancesAnywhere i s :=
  ⟨(s.setReg d v).regs, s.flags, s.mem, s.vbuf, none, fun p => by rw [h, State.setReg_withPc]⟩

/-- mov, add, sub, mul and inc, by what they share (41_move_arith.md R125). -/
theorem advancesAnywhere_of_updateReg {i : Instr} {a : Operand} {f : Word → Word} (s : State)
    (h : ∀ t, exec i t = .next (updateReg a (len i) f t)) : AdvancesAnywhere i s := by
  rcases destSlot_cases a with ⟨d, hreg, hd, _⟩ | ⟨rep, hslot⟩
  · exact .of_setReg (d := d) (v := f (s.get d)) fun p => by rw [h, updateReg_of_reg hreg hd]; rfl
  · exact .of_report (rep := some rep) fun p => by rw [h, updateReg, hslot, withSlot_error]

theorem advancesAnywhere_div (a b : Operand) (s : State) : AdvancesAnywhere (.div a b) s := by
  rcases destSlot_cases a with ⟨d, hreg, hd, _⟩ | ⟨rep, hslot⟩
  · by_cases hb : b.raw = 0
    · exact .of_report (rep := some .divideByZero) fun p => by rw [execDiv_of_reg hreg hd, if_pos hb]; rfl
    · exact .of_setReg (d := d) (v := BitVec.ofNat 16 ((s.get d).toNat / b.raw.toNat)) fun p => by
        rw [execDiv_of_reg hreg hd, if_neg hb]; rfl
  · exact .of_report (rep := some rep) fun p => by rw [exec, execDiv, hslot, withSlot_error]; rfl

theorem advancesAnywhere_load {a b : Operand} {s : State}
    (h : a.reg = none ∨ a.reg = some .k0 ∨ effectiveIndex b.raw < s.cfg.memWords) :
    AdvancesAnywhere (.load a b) s := by
  rcases destSlot_cases a with ⟨d, hreg, hd, _⟩ | ⟨rep, hslot⟩
  · have hin : effectiveIndex b.raw < s.cfg.memWords := by simpa [hreg, hd] using h
    exact .of_setReg (d := d) (v := s.mem.readWord (effectiveIndex b.raw)) fun p =>
      execLoad_of_lt (s := { s with pc := p }) hreg hd hin
  · exact .of_report (rep := some rep) fun p => by rw [exec, execLoad, hslot, withSlot_error]; rfl

theorem advancesAnywhere_store {a b : Operand} {s : State}
    (h : b.reg = none ∨ effectiveIndex a.raw < s.cfg.memWords) : AdvancesAnywhere (.store a b) s := by
  rcases hreg : b.reg with _ | r
  · exact .of_report (rep := some .badRegister) fun p => by
      rw [exec, execStore, srcSlot_of_none hreg, withSlot_error]; rfl
  · have hin : effectiveIndex a.raw < s.cfg.memWords := by simpa [hreg] using h
    exact ⟨s.regs, s.flags, s.mem.writeWord (effectiveIndex a.raw) (s.get r), s.vbuf, none, fun p =>
      execStore_of_lt (s := { s with pc := p }) hreg hin⟩

theorem advancesAnywhere_cmp (a b : Operand) (s : State) : AdvancesAnywhere (.cmp a b) s := by
  rcases hreg : a.reg with _ | r
  · exact .of_report (rep := some .badRegister) fun p => by
      rw [exec, execCmp, srcSlot_of_none hreg, withSlot_error]; rfl
  · exact ⟨s.regs, setFlagZ s.flags (s.get r == b.raw), s.mem, s.vbuf, none, fun p => execCmp_of_reg hreg _⟩

theorem execCall_of_none {a : Operand} {s : State} (h : s.cfg.tables.fnOf a.raw = none) :
    exec (.call a) s = .next (s.advance 2 (some .unknownFunction)) := by
  simp only [exec, execCall, valueSlot, h, State.skip]

theorem advancesAnywhere_call (a : Operand) (s : State) : AdvancesAnywhere (.call a) s := by
  rcases hfn : s.cfg.tables.fnOf a.raw with _ | f
  · exact .of_report (rep := some .unknownFunction) fun p => execCall_of_none hfn
  · rcases hdraw : runDraw f s with rep | v
    · exact .of_report (rep := some rep) fun p => execCall_of_error hfn (by rw [runDraw_withPc, hdraw])
    · exact ⟨s.regs, s.flags, s.mem, v, none, fun p => execCall_of_ok hfn (by rw [runDraw_withPc, hdraw])⟩

theorem advancesAnywhere_of_takesDefaultAdvance {i : Instr} {s : State} (h : takesDefaultAdvance s i) :
    AdvancesAnywhere i s := by
  cases i with
  | nop => exact .of_report (rep := none) fun p => rfl
  | mov a b | add a b | sub a b | mul a b | inc a => exact advancesAnywhere_of_updateReg s fun t => rfl
  | div a b => exact advancesAnywhere_div a b s
  | load a b => exact advancesAnywhere_load h
  | store a b => exact advancesAnywhere_store h
  | cmp a b => exact advancesAnywhere_cmp a b s
  | call a => exact advancesAnywhere_call a s
  | je a => exact .of_report (rep := none) fun p => exec_je (s := { s with pc := p }) h a
  | jne a => exact .of_report (rep := none) fun p => exec_jne (s := { s with pc := p }) h a
  | jmp a | hlt => exact h.elim

/-! ### The counter's overflow -/

/-- From `s` to `t` the counter would have passed 65535 in moving by `n`: it stays, and the record tells where it would
have gone (60_exceptions.md R275). -/
def OverflowsBy (s t : State) (n : Nat) : Prop :=
  65535 < s.pc.toNat + n ∧ t.fatal.info = s.pc.toNat + n ∧ t.pc = s.pc

/-- `u` is `s` with the instruction's effects. -/
theorem State.overflowsBy_advance {s u : State} {n : Nat} {rep : Option Report} (hpc : u.pc = s.pc)
    (hrun : u.run = .running) (hfatal : (u.advance n rep).run = .fatal) : OverflowsBy s (u.advance n rep) n := by
  rcases Nat.lt_or_ge 65535 (u.pc.toNat + n) with hgt | hle
  · obtain ⟨hstay, _, hrec, _⟩ := State.advance_fields_of_gt hgt rep
    exact ⟨hpc ▸ hgt, by rw [hrec, hpc], hstay.trans hpc⟩
  · obtain ⟨_, hkeep, _⟩ := State.advance_fields_of_le hle rep
    rw [hkeep, hrun] at hfatal
    cases hfatal

/-- Of an instruction's effects, those that enter FATAL with `PcOverflow` end in the default advance. -/
theorem Effect.overflowsBy {s t : State} {i : Instr} (h : Effect s i t) (hrun : s.run = .running)
    (hfatal : t.run = .fatal) (hcause : t.fatal.cause = .pcOverflow) : OverflowsBy s t (len i) := by
  cases h with
  | skip | flag | mem | draw => exact State.overflowsBy_advance rfl hrun hfatal
  | write =>
    exact State.overflowsBy_advance (State.setReg_pc ..) ((State.setReg_run ..).trans hrun) hfatal
  | jump => simp [hrun] at hfatal
  | halt => simp at hfatal
  | data => simp at hcause

/-- A step that ends in `PcOverflow` read all its words inside memory. -/
theorem step_overflowsBy {s t : State} (hrun : s.run = .running) (hstep : step s = .next t) (hfatal : t.run = .fatal)
    (hcause : t.fatal.cause = .pcOverflow) : ∃ n, OverflowsBy s t n ∧ s.pc.toNat + n ≤ s.cfg.memWords := by
  rcases step_cases s with ⟨hstop, _⟩ | ⟨_, ⟨i, rest, hdec, hexec⟩ | ⟨k, _, hmiss⟩ | ⟨tag, hdec, hskip⟩⟩
  · contradiction
  · exact ⟨len i, (effect_of_exec (hexec ▸ hstep)).overflowsBy hrun hfatal hcause, pc_add_len_le hdec⟩
  · cases hmiss.symm.trans hstep
    simp only [State.raiseFatal_fatal, State.missingWord] at hcause
    split at hcause <;> cases hcause
  · cases hskip.symm.trans hstep
    exact ⟨1, State.overflowsBy_advance rfl hrun hfatal, unknown_lt hdec⟩

/-- Settles O24: `AdvancesAnywhere` at the counter of `s` and at 0, then `State.advance` inside and past the range; an
overflow's words lie inside memory, so their end is its size 65536. -/
theorem defaultAdvanceOrPcOverflow : Obligations.DefaultAdvanceOrPcOverflow := by
  refine ⟨fun i s h => ?_, fun s hrun hpc hop => ?_, fun s t hsize hrun hstep hfatal hcause => ?_⟩
  · obtain ⟨regs, flags, mem, vbuf, rep, hexec⟩ := advancesAnywhere_of_takesDefaultAdvance h
    refine ⟨_, _, hexec s.pc, hexec 0, by simp, by simp, by simp, by simp, fun hle => ?_, fun hgt => ?_⟩
    · exact State.advance_fields_of_le (s := { s with regs, flags, mem, vbuf }) hle rep
    · exact State.advance_fields_of_gt (s := { s with regs, flags, mem, vbuf }) hgt rep
  · refine ⟨_, step_of_opcodeOf_none hrun hpc hop, by simp, by simp, by simp, by simp, fun hle => ?_, fun hgt => ?_⟩
    · obtain ⟨hpc', hrun', _⟩ := State.advance_fields_of_le hle (some .unknownOpcode)
      exact ⟨hpc', hrun'.trans hrun⟩
    · obtain ⟨hpc', hrun', hrec, _⟩ := State.advance_fields_of_gt hgt (some .unknownOpcode)
      exact ⟨hpc', hrun', hrec⟩
  · obtain ⟨n, ⟨hgt, hinfo, hpc⟩, hin⟩ := step_overflowsBy hrun hstep hfatal hcause
    exact ⟨by omega, by omega, hpc⟩

end Sys2Proof.Machine
end

section
/-! Move and arithmetic (41_move_arith.md): the results as numbers, an instruction that writes one register, and the
obligations of the family. -/

namespace Sys2Proof.Machine

open Sys2Proof.Claims

/-! ### The encoding -/

theorem encode_of_opcodeWord {T : Tables} {i : Instr} {w : Word} (op : Opcode) (hop : i.opcode = op)
    (hw : opcodeWord T op = w) : encode T i = w :: i.operands.map Operand.raw := by
  rw [encode, hop, hw]

/-! ### Results as numbers -/

theorem toNat_trunc16 (z : Int) : (trunc16 z).toNat = (z % 65536).toNat := BitVec.toNat_ofInt ..

theorem toNat_trunc16_natCast (n : Nat) : (trunc16 n).toNat = n % 65536 := by
  rw [toNat_trunc16]
  omega

/-- A quotient of words is a word. -/
theorem toNat_ofNat_div (x y : Word) : (BitVec.ofNat 16 (x.toNat / y.toNat)).toNat = x.toNat / y.toNat :=
  (BitVec.toNat_ofNat _ _).trans (Nat.mod_eq_of_lt ((Nat.div_le_self _ _).trans_lt x.isLt))

/-! ### An instruction with one destination register -/

theorem State.advance_eq_advanced {s : State} {n : Nat} (h : s.pc.toNat + n ≤ 65535) (rep : Option Report) :
    s.advance n rep = advanced s n rep :=
  State.advance_of_le h rep

/-- A register write and the default advance are what `Writes` says. -/
theorem writes_of_exec_setReg {i : Instr} {s : State} {d : Reg} {v : Word} {n : Nat} (hd : d ≠ .k0)
    (hpc : s.pc.toNat + n ≤ 65535) (hexec : exec i s = .next ((s.setReg d v).advance n none)) :
    Writes i s d v.toNat n := by
  refine ⟨_, hexec, ?_, fun r hr => ?_, ?_⟩
  · rw [State.advance_get, State.get_setReg_self s hd]
  · rw [State.advance_get, State.get_setReg_ne s hr]
  · rw [State.advance_eq_advanced (by rwa [State.setReg_pc]), State.setReg_eq]
    rfl

/-- The test of the destination slot comes before all that `k` does (30_encoding.md R90). -/
theorem skipsBadDestination_of_exec {i : Instr} {a : Operand} {s : State} {n : Nat} {k : Reg → State}
    (hexec : exec i s = .next (withSlot (destSlot a) n s k)) : SkipsBadDestination i a s n := by
  refine fun hpc => ⟨fun hnone => ?_, fun hk0 => ?_⟩
  · rw [hexec, destSlot_of_none hnone, withSlot_error, State.advance_eq_advanced hpc]
  · rw [hexec, destSlot_of_k0 hk0, withSlot_error, State.advance_eq_advanced hpc]

/-- What mov, add, sub, mul and inc share (41_move_arith.md R125); `v d` is the new value of the destination `d`. -/
theorem writes_and_skips_of_updateReg {i : Instr} {a : Operand} {s : State} {n : Nat} {f : Word → Word}
    {v : Reg → Nat} (hexec : exec i s = .next (updateReg a n f s)) (hv : ∀ d, (f (s.get d)).toNat = v d) :
    (∀ d, a.reg = some d → d ≠ .k0 → s.pc.toNat + n ≤ 65535 → Writes i s d (v d) n) ∧
      SkipsBadDestination i a s n := by
  refine ⟨fun d hreg hd hpc => ?_, skipsBadDestination_of_exec hexec⟩
  rw [← hv d]
  exact writes_of_exec_setReg hd hpc (by rw [hexec, updateReg_of_reg hreg hd])

/-! ### The obligations -/

/-- Settles O27: `updateReg` with the raw argument word. -/
theorem movWritesTheRawImmediate : Obligations.MovWritesTheRawImmediate :=
  fun _ _ _ => ⟨encode_of_opcodeWord .mov rfl (by decide),
    writes_and_skips_of_updateReg rfl fun _ => rfl⟩

/-- Settles O28: `trunc16` of a sum of naturals. -/
theorem addWrapsModulo65536 : Obligations.AddWrapsModulo65536 := by
  refine fun s a b => ⟨encode_of_opcodeWord .add rfl (by decide), writes_and_skips_of_updateReg rfl fun d => ?_⟩
  rw [valueSlot, ← Int.natCast_add, toNat_trunc16_natCast]

/-- Settles O29: `trunc16` of a difference of integers. -/
theorem subWrapsModulo65536 : Obligations.SubWrapsModulo65536 :=
  fun _ _ _ => ⟨encode_of_opcodeWord .sub rfl (by decide),
    writes_and_skips_of_updateReg rfl fun _ => toNat_trunc16 _⟩

/-- Settles O30: `trunc16` of a product of naturals. -/
theorem mulKeepsTheLowSixteenBits : Obligations.MulKeepsTheLowSixteenBits := by
  refine fun s a b => ⟨encode_of_opcodeWord .mul rfl (by decide), writes_and_skips_of_updateReg rfl fun d => ?_⟩
  rw [valueSlot, ← Int.natCast_mul, toNat_trunc16_natCast]

/-- Settles O31: behind the slot's test, the two cases of the divisor. -/
theorem divIsTheUnsignedQuotient : Obligations.DivIsTheUnsignedQuotient := by
  refine fun s a b => ⟨encode_of_opcodeWord .div rfl (by decide), fun d hreg hd hpc => ⟨fun hb => ?_, fun hb => ?_⟩,
    skipsBadDestination_of_exec rfl⟩
  · rw [← toNat_ofNat_div]
    exact writes_of_exec_setReg hd hpc (by rw [execDiv_of_reg hreg hd, if_neg hb])
  · rw [execDiv_of_reg hreg hd, if_pos hb, State.advance_eq_advanced hpc]

/-- Settles O32: `trunc16` of the successor. -/
theorem incWrapsModulo65536 : Obligations.IncWrapsModulo65536 :=
  fun _ _ => ⟨encode_of_opcodeWord .inc rfl (by decide),
    writes_and_skips_of_updateReg rfl fun _ => toNat_trunc16_natCast _⟩

end Sys2Proof.Machine
end

section
/-! Load and store (42_load_store.md): the word at half the byte offset, read or written, and a data access outside
memory. -/

namespace Sys2Proof.Machine

open Sys2Proof.Claims

/-! ### What store does with its source slot -/

/-- The source slot of store is tested before its access (30_encoding.md R90). -/
theorem execStore_of_none {a b : Operand} {s : State} (h : b.reg = none) :
    exec (.store a b) s = .next (s.advance 3 (some .badRegister)) := by
  rw [exec, execStore, srcSlot_of_none h, withSlot_error]

/-- Inside memory and inside the counter's range, store changes memory at one word and advances. -/
theorem execStore_eq_advanced {a b : Operand} {r : Reg} {s : State} (hreg : b.reg = some r)
    (hin : effectiveIndex a.raw < s.cfg.memWords) (hpc : s.pc.toNat + 3 ≤ 65535) :
    exec (.store a b) s =
      .next { advanced s 3 none with mem := s.mem.writeWord (effectiveIndex a.raw) (s.get r) } := by
  rw [execStore_of_lt hreg hin, State.advance_eq_advanced (by exact hpc)]
  rfl

/-! ### The obligations -/

/-- Settles O33: behind the destination slot's test, load is a register write inside memory, and fatal outside. -/
theorem loadReadsTheWordAtHalfTheOffset : Obligations.LoadReadsTheWordAtHalfTheOffset :=
  fun _ _ _ => ⟨encode_of_opcodeWord .load rfl (by decide),
    fun _ hreg hd => ⟨fun hin hpc => writes_of_exec_setReg hd hpc (execLoad_of_lt hreg hd hin),
      execLoad_of_ge hreg hd⟩,
    skipsBadDestination_of_exec rfl⟩

/-- Settles O34: `Memory.writeWord` at half the offset, read back as a word, and byte by byte beside it. -/
theorem storeWritesTheWordAtHalfTheOffset : Obligations.StoreWritesTheWordAtHalfTheOffset := by
  refine fun s a b => ⟨encode_of_opcodeWord .store rfl (by decide),
    fun r hreg => ⟨fun hin hmem hpc => ?_, execStore_of_ge hreg⟩, fun hnone hpc => ?_⟩
  · exact ⟨_, execStore_eq_advanced hreg hin hpc, Memory.readWord_writeWord_self hmem _ _,
      fun _ => Memory.readByte_writeWord_ne _ _, rfl⟩
  · rw [execStore_of_none hnone, State.advance_eq_advanced hpc]

end Sys2Proof.Machine
end

section
/-! Compare and control transfer (43_compare_jump.md): the flag `cmp` leaves, and a conditional jump that is taken or
falls through. -/

namespace Sys2Proof.Machine

open Sys2Proof.Claims

/-! ### Compare -/

/-- The register slot of cmp is tested before the comparison (30_encoding.md R90). -/
theorem execCmp_of_none {a b : Operand} {s : State} (h : a.reg = none) :
    exec (.cmp a b) s = .next (s.advance 3 (some .badRegister)) := by
  rw [exec, execCmp, srcSlot_of_none h, withSlot_error]

/-- Inside the counter's range, cmp changes Z and advances. -/
theorem execCmp_eq_advanced {a b : Operand} {r : Reg} {s : State} (hreg : a.reg = some r)
    (hpc : s.pc.toNat + 3 ≤ 65535) :
    exec (.cmp a b) s = .next { advanced s 3 none with flags := setFlagZ s.flags (s.get r == b.raw) } := by
  rw [execCmp_of_reg hreg, State.advance_eq_advanced (by exact hpc)]
  rfl

theorem flagZ_setFlagZ_beq_iff (w x y : Word) : flagZ (setFlagZ w (x == y)) = true ↔ x = y := by
  rw [flagZ_setFlagZ, beq_iff_eq]

/-! ### A conditional jump that falls through -/

/-- `i` is a conditional jump whose condition `s` does not meet (43_compare_jump.md R152, R153). -/
def FallsThrough (s : State) (i : Instr) (a : Operand) : Prop :=
  i = .je a ∧ s.flags.getLsbD 0 = false ∨ i = .jne a ∧ s.flags.getLsbD 0 = true

theorem exec_of_fallsThrough {s : State} {i : Instr} {a : Operand} (h : FallsThrough s i a)
    (hpc : s.pc.toNat + 2 ≤ 65535) : exec i s = .next (advanced s 2 none) := by
  rw [← State.advance_eq_advanced hpc]
  rcases h with ⟨rfl, hz⟩ | ⟨rfl, hz⟩
  · exact exec_je hz a
  · exact exec_jne hz a

/-! ### The obligations -/

/-- Settles O36: Z read back after it is set to the equality, and the upper bits beside it. -/
theorem cmpSetsZIffEqual : Obligations.CmpSetsZIffEqual := by
  refine fun s a b => ⟨encode_of_opcodeWord .cmp rfl (by decide), fun hpc => ⟨fun r hreg => ?_, fun hnone => ?_⟩⟩
  · exact ⟨_, execCmp_eq_advanced hreg hpc, flagZ_setFlagZ_beq_iff _ _ _, setFlagZ_high _ _, rfl⟩
  · rw [execCmp_of_none hnone, State.advance_eq_advanced hpc]

/-- Settles O37: a taken jump keeps the run state and the configuration, so the next fetch tests the target. -/
theorem jmpSetsTheCounter : Obligations.JmpSetsTheCounter :=
  fun s a => ⟨encode_of_opcodeWord .jmp rfl (by decide), s.jump a.raw, exec_of_takesJump (.inl rfl), rfl,
    step_of_fetch_outside (s := s.jump a.raw)⟩

/-- Settles O38: in both values of Z, one of the two jumps is taken and the other falls through. -/
theorem conditionalJumpsFollowZ : Obligations.ConditionalJumpsFollowZ := by
  refine fun s a => ⟨encode_of_opcodeWord .je rfl (by decide), encode_of_opcodeWord .jne rfl (by decide),
    fun hset => ⟨?_, ?_⟩, fun hclear => ⟨?_, ?_⟩⟩
  · exact exec_of_takesJump (.inr (.inl ⟨rfl, hset⟩))
  · exact exec_of_fallsThrough (.inr ⟨rfl, hset⟩)
  · exact exec_of_takesJump (.inr (.inr ⟨rfl, hclear⟩))
  · exact exec_of_fallsThrough (.inl ⟨rfl, hclear⟩)

end Sys2Proof.Machine
end

section
/-! Halt and no-operation (44_halt_nop.md): which effects halt a machine, and the obligations of the family. -/

namespace Sys2Proof.Machine

open Sys2Proof.Claims

/-! ### What halts a machine -/

/-- The default advance keeps the run state or enters FATAL, so it halts no machine. -/
theorem State.advance_run_eq_halted_iff (s : State) (n : Nat) (rep : Option Report) :
    (s.advance n rep).run = .halted ↔ s.run = .halted ∧ s.pc.toNat + n ≤ 65535 := by
  rcases Nat.lt_or_ge 65535 (s.pc.toNat + n) with hgt | hle
  · obtain ⟨_, hfatal, _⟩ := State.advance_fields_of_gt hgt rep
    simp [hfatal, hgt]
  · obtain ⟨_, hkeep, _⟩ := State.advance_fields_of_le hle rep
    simp [hkeep, hle]

/-- Of an instruction's effects, those that halt a machine which was not halted are those of `hlt`. -/
theorem Effect.eq_hlt_of_halted {s t : State} {i : Instr} (h : Effect s i t) (hs : s.run ≠ .halted)
    (ht : t.run = .halted) : i = .hlt := by
  cases h with
  | halt => rfl
  | skip | write | flag | mem | draw =>
    obtain ⟨hrun, _⟩ := (State.advance_run_eq_halted_iff ..).1 ht
    exact absurd (by simpa using hrun) hs
  | jump => exact absurd ht hs
  | data => cases ht

/-- Every step request after `hlt` is idle (44_halt_nop.md R165). -/
theorem core_run_halt (s : State) : ∀ n, Sys2Proof.core.run (n + 1) s.halt = .next s.halt.idle :=
  core_run_of_step_fixed (step_of_not_running (by simp)) (step_of_not_running (by simp))

/-! ### The obligations -/

/-- Settles O40: `hlt` is `State.halt`, which leaves the machine outside RUNNING, and no other effect enters HALTED. -/
theorem hltAloneHalts : Obligations.HltAloneHalts :=
  ⟨encode_of_opcodeWord .hlt rfl (by decide), fun s => ⟨s.halt, rfl, rfl, core_run_halt s⟩,
    fun _ _ _ hexec => (effect_of_exec hexec).eq_hlt_of_halted⟩

/-- Settles O10: the decoder's refusal takes the default advance, here inside the counter's range. -/
theorem unknownOpcodeIsAReportedOneWordNop : Obligations.UnknownOpcodeIsAReportedOneWordNop := by
  intro s hrun hin hop hpc
  rw [step_of_opcodeOf_none hrun hin hop, State.advance_eq_advanced hpc]

/-- Settles O41: `nop` is the default advance, here inside the counter's range. -/
theorem nopOnlyAdvances : Obligations.NopOnlyAdvances :=
  ⟨encode_of_opcodeWord .nop rfl (by decide),
    fun _ hpc => congrArg Host.Outcome.next (State.advance_eq_advanced hpc none)⟩

end Sys2Proof.Machine
end

section
/-! The draw dispatch of call (45_call.md): the decided identifiers, a call that completes or selects no function, and the
obligations of the family. -/

namespace Sys2Proof

/-! ### The decided identifiers -/

/-- Every entry of the decided `FNID` is a position in the list of draw functions (45_call.md R176). -/
theorem getElem?_all_of_mem_decidedFnid : ∀ p ∈ decidedFnid, DrawFn.all[p.1.toNat]? = some p.2 := by decide

/-- The decided identifiers are the positions of the draw functions, so an identifier past the last has none. -/
theorem decided_fnOf (w : Word) : Tables.decided.fnOf w = DrawFn.all[w.toNat]? := by
  rcases hfn : Tables.decided.fnOf w with _ | f
  · have hpositions : ∀ n < 7, Tables.decided.fnOf (BitVec.ofNat 16 n) ≠ none := by decide
    have hpast : 7 ≤ w.toNat := Nat.le_of_not_lt fun hlt =>
      hpositions w.toNat hlt (by rw [BitVec.ofNat_toNat, BitVec.setWidth_eq, hfn])
    exact (List.getElem?_eq_none hpast).symm
  · exact (getElem?_all_of_mem_decidedFnid _ (lookup_some_mem hfn)).symm

end Sys2Proof

namespace Sys2Proof.Machine

open Sys2Proof.Claims

/-! ### A call that completes -/

/-- Inside the counter's range, a call whose draw function gives a new buffer changes VBUF alone and advances. -/
theorem execCall_eq_advanced {a : Operand} {f : DrawFn} {s : State} {v : VBuf} (hcalls : Calls a f s)
    (hv : runDraw f s = .ok v) : exec (.call a) s = .next { advanced s 2 none with vbuf := v } := by
  obtain ⟨hfn, hpc⟩ := hcalls
  rw [execCall_of_ok hfn hv, State.advance_eq_advanced (by exact hpc)]
  rfl

/-! ### The two functions that write every cell -/

theorem getElem?_clearScreen (v : VBuf) (i : Nat) : (clearScreen v)[i]? = v[i]?.map fun _ => opaqueBlack :=
  List.getElem?_map

theorem getElem?_fillScreen (color : Color) (v : VBuf) (i : Nat) :
    (fillScreen color v)[i]? = v[i]?.map fun old => { color with a := old.a } :=
  List.getElem?_map

/-! ### The obligations -/

/-- Settles O44: both functions complete, and each is a map over the cells. -/
theorem clearAndFillScreenWriteEveryCell : Obligations.ClearAndFillScreenWriteEveryCell := by
  refine fun s a => ⟨fun hcalls => ?_, fun hcalls => ?_⟩
  · refine ⟨_, execCall_eq_advanced hcalls rfl, rfl, length_clearScreen _, fun i hi => ?_⟩
    rw [getElem?_clearScreen, List.getElem?_eq_getElem hi]
    rfl
  · refine ⟨_, execCall_eq_advanced hcalls rfl, rfl, length_fillScreen _ _, fun i old hold => ?_⟩
    rw [getElem?_fillScreen, hold]
    rfl

/-- Settles O42: the default advance with its report, here inside the counter's range, and the decided `FNID`. -/
theorem unknownFunctionIsAReportedNop : Obligations.UnknownFunctionIsAReportedNop := by
  refine ⟨fun s a hfn hpc => ?_, decided_fnOf⟩
  rw [execCall_of_none hfn, State.advance_eq_advanced hpc]

/-- Settles O43: each argument reads the register of its decided role, and a channel is a low byte. -/
theorem drawArgumentsAreGatheredUnsigned : Obligations.DrawArgumentsAreGatheredUnsigned := by
  intro s hroles
  simp only [State.argColor, State.argP1, State.argP2, State.argP3, State.argP4, State.argScalar, State.argChar, hroles]
  exact ⟨⟨lo8_toNat _, lo8_toNat _, lo8_toNat _, trivial⟩, rfl, rfl, rfl, rfl, rfl, rfl⟩

end Sys2Proof.Machine
end

section
/-! The bitmap blitter and the glyph compositor (49_draw_bitmap_glyph.md): the fields of a resource as numbers, what
ParseBmp accepts, a call that fails or draws an empty picture, the compositor's channels, and the obligations of the
family. -/

namespace Sys2Proof.Machine

open Sys2Proof.Claims

/-! ### The fields of a resource -/

/-- An appended bit vector as a number: the right part is the less significant. -/
theorem toNat_append_eq_add {m n : Nat} (hi : BitVec m) (lo : BitVec n) :
    (hi ++ lo).toNat = lo.toNat + 2 ^ n * hi.toNat := by
  rw [BitVec.toNat_append, ← Nat.shiftLeft_add_eq_or_of_lt lo.isLt, Nat.shiftLeft_eq, Nat.mul_comm, Nat.add_comm]

theorem toNat_resLe16 (res : List Byte) (k : Nat) : (resLe16 res k).toNat = field16 res k :=
  toNat_append_eq_add _ _

theorem toNat_resLe32 (res : List Byte) (k : Nat) : (resLe32 res k).toNat = field32 res k := by
  have hlast : k + 2 + 1 = k + 3 := rfl
  simp only [resLe32, toNat_append_eq_add, field32, field16, hlast]
  omega

/-- `signed32` is the two's-complement reading of a 32-bit word. -/
theorem toInt_eq_signed32 (z : BitVec 32) : z.toInt = signed32 z.toNat := by
  have hlt := z.isLt
  rw [BitVec.toInt_eq_toNat_cond, signed32]
  split <;> split <;> omega

theorem toInt_resLe32 (res : List Byte) (k : Nat) : (resLe32 res k).toInt = signed32 (field32 res k) := by
  rw [toInt_eq_signed32, toNat_resLe32]

/-! ### What ParseBmp accepts -/

/-- The pitch is the least multiple of 4 that holds a row (49_draw_bitmap_glyph.md R248). -/
theorem eq_bmpPitch_iff (w pitch : Nat) :
    pitch = bmpPitch w ↔ pitch % 4 = 0 ∧ 3 * w ≤ pitch ∧ pitch < 3 * w + 4 := by
  unfold bmpPitch
  omega

/-- The checks of ParseBmp on the words it reads, and the header it makes of them (49_draw_bitmap_glyph.md R246,
R247). -/
theorem parseBmp_eq_some_iff (res : List Byte) (hdr : BmpHeader) : parseBmp res = some hdr ↔
    30 ≤ res.length ∧ (resLe16 res 28).toNat = 24 ∧ hdr.off = (resLe32 res 10).toNat ∧
    (hdr.w : Int) = (resLe32 res 18).toInt ∧ (hdr.h : Int) = (resLe32 res 22).toInt ∧ hdr.pitch = bmpPitch hdr.w ∧
    (0 < hdr.w → 0 < hdr.h → hdr.off + (hdr.h - 1) * hdr.pitch + 3 * hdr.w ≤ res.length) := by
  obtain ⟨off, w, h, pitch⟩ := hdr
  simp only [parseBmp, Option.ite_none_left_eq_some, Option.some.injEq, BmpHeader.mk.injEq, not_lt, ne_eq, not_not,
    not_or, not_and]
  constructor
  · rintro ⟨hlen, hdepth, ⟨hw, hh⟩, hfits, rfl, rfl, rfl, rfl⟩
    exact ⟨hlen, hdepth, rfl, Int.toNat_of_nonneg hw, Int.toNat_of_nonneg hh, rfl, fun hw hh =>
      hfits (Int.pos_iff_toNat_pos.mpr hw) (Int.pos_iff_toNat_pos.mpr hh)⟩
  · rintro ⟨hlen, hdepth, rfl, hw, hh, rfl, hfits⟩
    rw [← hw, ← hh]
    exact ⟨hlen, hdepth, ⟨Int.natCast_nonneg w, Int.natCast_nonneg h⟩,
      fun hw hh => hfits (Int.natCast_pos.mp hw) (Int.natCast_pos.mp hh), rfl, rfl, rfl, rfl⟩

/-- Row `y` starts no later than the last row, and pixel `x` ends no later than that row's pixels. -/
theorem bmpPixel_inside {res : List Byte} {hdr : BmpHeader} (hparse : parseBmp res = some hdr) {x y : Nat}
    (hx : x < hdr.w) (hy : y < hdr.h) : hdr.off + y * hdr.pitch + 3 * x + 2 < res.length := by
  obtain ⟨_, _, _, _, _, _, hfits⟩ := (parseBmp_eq_some_iff res hdr).mp hparse
  have hlast := hfits (by omega) (by omega)
  have hrow : y * hdr.pitch ≤ (hdr.h - 1) * hdr.pitch := Nat.mul_le_mul_right _ (by omega)
  omega

/-! ### A call of draw_bmp, and one that fails -/

/-- Inside the counter's range, a call whose draw function fails advances with the function's report. -/
theorem execCall_error_eq_advanced {a : Operand} {f : DrawFn} {s : State} {rep : Report} (hcalls : Calls a f s)
    (hfail : runDraw f s = .error rep) : exec (.call a) s = .next (advanced s 2 (some rep)) := by
  obtain ⟨hfn, hpc⟩ := hcalls
  rw [execCall_of_error hfn hfail, State.advance_eq_advanced hpc]

theorem runDraw_drawBmp_of_refused {s : State}
    (h : s.cfg.bmpRes = none ∨ ∃ res, s.cfg.bmpRes = some res ∧ parseBmp res = none) :
    runDraw .drawBmp s = .error .resourceError := by
  obtain habsent | ⟨res, hres, hparse⟩ := h
  · simp only [runDraw, runDrawBmp, drawBmp, habsent]
  · simp only [runDraw, runDrawBmp, drawBmp, hres, hparse]

theorem runDraw_drawBmp_of_accepted {s : State} {res : List Byte} {hdr : BmpHeader} (hres : s.cfg.bmpRes = some res)
    (hparse : parseBmp res = some hdr) :
    runDraw .drawBmp s = .ok (blitBmp s.cfg.canvasW s.cfg.canvasH res hdr s.argP1 s.vbuf) := by
  simp only [runDraw, runDrawBmp, drawBmp, hres, hparse]

theorem paint_eq_self {W H : Nat} {f : Int → Int → Option Color} (hf : ∀ x y, f x y = none) (v : VBuf) :
    paint W H f v = v := by
  refine List.ext_getElem? fun i => ?_
  have hcell : paintCell W H f i = id := by
    funext old
    simp only [paintCell, hf, Option.getD_none, ite_self, id]
  rw [getElem?_paint, hcell, Option.map_id, id]

/-- A picture of width or height 0 covers no cell. -/
theorem blitBmp_of_empty {hdr : BmpHeader} (hempty : hdr.w = 0 ∨ hdr.h = 0) (W H : Nat) (res : List Byte)
    (pos : Point) (v : VBuf) : blitBmp W H res hdr pos v = v :=
  paint_eq_self (fun _ _ => if_neg (by omega)) v

/-! ### The compositor -/

/-- A scaled channel is still a byte, so nothing is cut off. -/
theorem toNat_scaleChannel (ch cov : Byte) : (scaleChannel ch cov).toNat = ch.toNat * cov.toNat / 255 := by
  have hprod : ch.toNat * cov.toNat ≤ 255 * 255 :=
    Nat.mul_le_mul (Nat.le_of_lt_succ ch.isLt) (Nat.le_of_lt_succ cov.isLt)
  rw [scaleChannel, BitVec.toNat_ofNat, Nat.mod_eq_of_lt (by omega)]

/-! ### The obligations -/

/-- Settles O52: three channels through the one scaling. -/
theorem compositeScalesEachChannelDown : Obligations.CompositeScalesEachChannelDown := fun _ _ =>
  ⟨toNat_scaleChannel _ _, toNat_scaleChannel _ _, toNat_scaleChannel _ _, rfl⟩

/-- Settles O49: ParseBmp's checks with its words read as numbers, the pixels inside by the last row's end, and the two
calls that write nothing. -/
theorem acceptedBitmapsAreReadInBounds : Obligations.AcceptedBitmapsAreReadInBounds := by
  refine ⟨fun res hdr => ?_, fun res hdr hparse x y => bmpPixel_inside hparse, fun s a hcalls =>
    ⟨fun hrefused => execCall_error_eq_advanced hcalls (runDraw_drawBmp_of_refused hrefused),
      fun res hdr hres hparse hempty => ?_⟩⟩
  · rw [parseBmp_eq_some_iff, eq_bmpPitch_iff, toNat_resLe16, toNat_resLe32, toInt_resLe32, toInt_resLe32]
    simp only [and_assoc]
  · rw [execCall_eq_advanced hcalls (runDraw_drawBmp_of_accepted hres hparse), blitBmp_of_empty hempty]
    rfl

end Sys2Proof.Machine
end

section
/-! Reset and the loader (70_reset_and_hazards.md R304, R305): the words an image packs to, what the loader's loop leaves
at each word, and the obligation of the family. -/

namespace Sys2Proof

/-! ### The words of an image -/

/-- An odd last byte takes a word of its own. -/
theorem length_wordsOfBytes (bs : List Byte) : (wordsOfBytes bs).length = (bs.length + 1) / 2 := by
  fun_induction wordsOfBytes bs with
  | case1 => rfl
  | case2 b => simp only [List.length_singleton]
  | case3 lo hi bs ih =>
    simp only [List.length_cons, ih]
    omega

/-- There is a word wherever there is a low byte; a missing high byte counts as 0. -/
theorem getElem?_wordsOfBytes (bs : List Byte) (i : Nat) :
    (wordsOfBytes bs)[i]? = bs[2 * i]?.map fun lo => wordOf lo (bs[2 * i + 1]?.getD 0) := by
  fun_induction wordsOfBytes bs generalizing i with
  | case1 => rfl
  | case2 b => cases i <;> rfl
  | case3 lo hi bs ih =>
    cases i with
    | zero => rfl
    | succ i => simpa only [Nat.mul_succ, List.getElem?_cons_succ] using ih i

end Sys2Proof

namespace Sys2Proof.Machine

/-! ### The loader's loop -/

theorem Memory.wf_nil : Memory.wf [] := ⟨List.Pairwise.nil, List.forall_mem_nil _⟩

theorem Memory.readWord_fill_of_lt (ws : List Word) (m : Memory) {i j : Nat} (h : j < i) :
    (m.fill i ws).readWord j = m.readWord j := by
  induction ws generalizing m i with
  | nil => rfl
  | cons w ws ih => rw [Memory.fill, ih _ (by omega), Memory.readWord_writeWord_ne _ _ (by omega)]

/-- From word `i` up the words of the list stand in order, and past them memory is as it was. -/
theorem Memory.readWord_fill_add (ws : List Word) {m : Memory} (hm : m.wf) (i j : Nat) :
    (m.fill i ws).readWord (i + j) = ws[j]?.getD (m.readWord (i + j)) := by
  induction ws generalizing m i j with
  | nil => rfl
  | cons w ws ih =>
    cases j with
    | zero =>
      rw [Memory.fill, Memory.readWord_fill_of_lt _ _ (by omega), Nat.add_zero, Memory.readWord_writeWord_self hm]
      rfl
    | succ j =>
      have hnext : i + (j + 1) = i + 1 + j := by omega
      rw [Memory.fill, hnext, ih (Memory.wf_writeWord hm _ _), Memory.readWord_writeWord_ne _ _ (by omega)]
      rfl

/-! ### Reset and load -/

theorem State.boot_eq_none {c : Config} {bs : List Byte} (h : c.memWords < (bs.length + 1) / 2) :
    State.boot c bs = none := by
  rw [← length_wordsOfBytes] at h
  exact if_pos h

theorem State.boot_eq_some {c : Config} {bs : List Byte} (h : (bs.length + 1) / 2 ≤ c.memWords) :
    State.boot c bs = some { State.resetOf c with mem := Memory.fill [] 0 (wordsOfBytes bs) } := by
  rw [← length_wordsOfBytes] at h
  exact if_neg (Nat.not_lt.2 h)

/-- A word of the loaded image: its low byte decides whether the image reaches it. -/
theorem Memory.readWord_fill_wordsOfBytes (bs : List Byte) (i : Nat) :
    (Memory.fill [] 0 (wordsOfBytes bs)).readWord i =
      (bs[2 * i]?.map fun lo => wordOf lo (bs[2 * i + 1]?.getD 0)).getD 0 := by
  have hword := Memory.readWord_fill_add (wordsOfBytes bs) Memory.wf_nil 0 i
  rwa [Memory.readWord_nil, Nat.zero_add, getElem?_wordsOfBytes] at hword

/-! ### The obligation -/

/-- Settles O59: an accepted image's words stand in an empty memory, and `wordOf` as a number gives the three cases of a
word's two bytes. -/
theorem loaderPlacesLittleEndianWords : Obligations.LoaderPlacesLittleEndianWords := by
  refine fun c bs => ⟨State.boot_eq_none, fun hfits => ⟨_, State.boot_eq_some hfits, rfl,
    Memory.wf_fill _ 0 Memory.wf_nil, fun i => ?_⟩⟩
  simp only [Memory.readWord_fill_wordsOfBytes]
  refine ⟨fun lo hi hlo hhi => ?_, fun lo hlo hhi => ?_, fun hlo => ?_⟩
  · rw [hlo, hhi]
    exact wordOf_toNat lo hi
  · rw [hlo, hhi]
    exact wordOf_toNat lo 0
  · rw [hlo]
    rfl

end Sys2Proof.Machine
end

section
/-! The decoder against the encoder (30_encoding.md sections 1 to 3): what the arguments of an opcode decode to, and
the round trip both ways. -/

namespace Sys2Proof

/-! ### The arguments of an opcode -/

/-- An opcode reads back the argument words of its instruction, each with its own classification. -/
theorem decodeArgs_operands {T : Tables} {i : Instr} (hi : i.wf T) (rest : List Word) :
    decodeArgs T i.opcode (i.operands.map Operand.raw ++ rest) = .ok (i, rest) := by
  cases i with
  | nop | hlt => rfl
  | inc a | jmp a | je a | jne a | call a =>
    have ha : classify T a.raw = a := classify_of_wf (hi a (by simp [Instr.operands]))
    simp [Instr.opcode, Instr.operands, decodeArgs, formatF1, ha]
  | mov a b | add a b | sub a b | mul a b | div a b | load a b | store a b | cmp a b =>
    have ha : classify T a.raw = a := classify_of_wf (hi a (by simp [Instr.operands]))
    have hb : classify T b.raw = b := classify_of_wf (hi b (by simp [Instr.operands]))
    simp [Instr.opcode, Instr.operands, decodeArgs, formatF2, ha, hb]

/-- Arguments that end too early: the decoder misses the first word that is not there. -/
theorem decodeArgs_of_length_lt (T : Tables) {op : Opcode} {ws : List Word} (h : ws.length < op.arity) :
    decodeArgs T op ws = .error (.missing (ws.length + 1)) := by
  cases op with
  | nop | hlt => exact absurd h (Nat.not_lt_zero _)
  | inc | jmp | je | jne | call =>
    obtain rfl : ws = [] := List.length_eq_zero_iff.1 (Nat.lt_one_iff.1 h)
    rfl
  | mov | add | sub | mul | div | load | store | cmp =>
    match ws with
    | [] | [_] => rfl
    | _ :: _ :: ws => exact absurd h (Nat.not_lt.2 (Nat.le_add_left 2 ws.length))

theorem decodeArgs_of_arity_zero (T : Tables) {op : Opcode} (h : op.arity = 0) (ws : List Word) :
    ∃ i, decodeArgs T op ws = .ok (i, ws) ∧ i.opcode = op := by
  cases op with
  | nop | hlt => exact ⟨_, rfl, rfl⟩
  | _ => cases h

/-! ### The round trip -/

theorem opcodeOf_lo8_opcodeWord {T : Tables} (hT : T.wf) (op : Opcode) :
    T.opcodeOf (lo8 (opcodeWord T op)) = some op := by
  rw [opcodeWord, lo8_wordOf, Tables.opcodeOf_tagOf hT]

end Sys2Proof

namespace Sys2Proof.Machine

/-- Settles O1: the opcode word selects the opcode, and the opcode reads back its arguments. -/
theorem encodedInstructionsDecodeToThemselves : Obligations.EncodedInstructionsDecodeToThemselves := by
  intro T i rest hT hi
  rw [encode, List.cons_append, decode_cons_of_opcodeOf_some (opcodeOf_lo8_opcodeWord hT i.opcode)]
  exact decodeArgs_operands hi rest

/-- Settles O2: `decode_ok` tells the words read, whose first is the tag under its own high byte. -/
theorem decodedWordsAreTheEncodingUpToTheHighByte : Obligations.DecodedWordsAreTheEncodingUpToTheHighByte := by
  intro T ws rest i hT h
  obtain ⟨w, hop, rfl, hwf⟩ := decode_ok h
  refine ⟨hwf, hi8 w, ?_⟩
  rw [Tables.tagOf_of_opcodeOf hT hop, wordOf_lo8_hi8]
  rfl

/-- Settles O6: the decoder, run on the seven sequences. -/
theorem specWordsDecode : Obligations.SpecWordsDecode := by
  unfold Obligations.SpecWordsDecode
  decide

end Sys2Proof.Machine
end

section
/-! The step cycle (40_step_cycle.md), continued: a step by what its window decodes to, and arguments that overrun
memory. -/

namespace Sys2Proof.Machine

theorem State.length_wordsFrom (s : State) (n i : Nat) : (s.wordsFrom n i).length = min n (s.cfg.memWords - i) := by
  induction n generalizing i with
  | zero => simp [State.wordsFrom]
  | succ n ih =>
    unfold State.wordsFrom
    split
    · simp only [List.length_nil]
      omega
    · rw [List.length_cons, ih]
      omega

/-- Settles O9: the words behind the opcode word are as many as memory has room for, at most two. -/
theorem argumentOutsideMemoryIsFatal : Obligations.ArgumentOutsideMemoryIsFatal := by
  intro s op hrun hpc hop
  have hdec : decode s.cfg.tables s.window = decodeArgs s.cfg.tables op (s.wordsFrom 2 (s.pc.toNat + 1)) := by
    rw [State.window_of_lt hpc, decode_cons_of_opcodeOf_some hop]
  refine ⟨fun k hk hkop hin hout => ?_, fun hop0 _ => ?_⟩
  · have harity : op.arity ≤ 2 := by cases op <;> decide
    have hlen : (s.wordsFrom 2 (s.pc.toNat + 1)).length + 1 = k := by
      rw [State.length_wordsFrom]
      omega
    rw [decodeArgs_of_length_lt s.cfg.tables (by omega), hlen] at hdec
    rw [step_of_decode_missing hrun hdec, State.missingWord, if_neg (by omega)]
    rfl
  · obtain ⟨i, hargs, hi⟩ := decodeArgs_of_arity_zero s.cfg.tables hop0 (s.wordsFrom 2 (s.pc.toNat + 1))
    exact ⟨i, hi, step_of_decode_ok hrun (hdec.trans hargs)⟩

/-- Settles O7: the window is `State.wordsFrom` at the counter. -/
theorem stepRunsTheDecodedInstruction : Obligations.StepRunsTheDecodedInstruction :=
  fun _ => ⟨fun _ _ hrun hdec => step_of_decode_ok hrun hdec, fun _ hk hin => State.getElem?_wordsFrom_of_lt hk hin⟩

/-- Settles O12: every case of a step answers a next state, a decoded instruction by `exec_effect`. -/
theorem everyStepAnswersANextState : Obligations.EveryStepAnswersANextState := by
  intro s
  obtain ⟨_, hidle⟩ | ⟨_, ⟨i, _, _, hexec⟩ | ⟨_, _, hmissing⟩ | ⟨_, _, hunknown⟩⟩ := step_cases s
  · exact ⟨_, hidle⟩
  · obtain ⟨t, ht, _⟩ := exec_effect i s
    exact ⟨t, hexec.trans ht⟩
  · exact ⟨_, hmissing⟩
  · exact ⟨_, hunknown⟩

end Sys2Proof.Machine
end

section
/-! The invariant `State.Legal` (10_state.md R35): each operation, every effect of an instruction and every step keeps
it, and so do the host's moves and the loader. -/

namespace Sys2Proof.Machine

/-! ### The operations keep the state legal -/

theorem State.Legal.raiseFatal {s : State} (hs : s.Legal) {f : FatalRecord} (hlo : 1 ≤ f.info) (hhi : f.info ≤ 65537)
    (rep : Option Report) : (s.raiseFatal f rep).Legal := by
  obtain ⟨hcfg, hmem, hwithin, hvbuf, hflags, _⟩ := hs
  exact ⟨hcfg, hmem, hwithin, hvbuf, hflags, fun _ => ⟨hlo, hhi⟩⟩

/-- Past the counter's range the record tells where the counter would have gone, at most two words past memory. -/
theorem State.Legal.advance {s : State} (hs : s.Legal) {n : Nat} (hn : s.pc.toNat + n ≤ 65537) (rep : Option Report) :
    (s.advance n rep).Legal := by
  obtain ⟨_, heq⟩ | ⟨hgt, heq⟩ := State.advance_cases s n rep
  · rw [heq]
    exact hs
  · rw [heq]
    exact hs.raiseFatal (Nat.le_of_lt (Nat.lt_of_le_of_lt (by decide) hgt)) hn rep

theorem State.Legal.setReg {s : State} (hs : s.Legal) (d : Reg) (v : Word) : (s.setReg d v).Legal := by
  rw [State.setReg_eq]
  exact hs

theorem State.Legal.compare {s : State} (hs : s.Legal) (x y : Word) : (s.compare x y).Legal := by
  obtain ⟨hcfg, hmem, hwithin, hvbuf, hflags, hfatal⟩ := hs
  exact ⟨hcfg, hmem, hwithin, hvbuf, (setFlagZ_high ..).trans hflags, hfatal⟩

theorem State.Legal.writeWord {s : State} (hs : s.Legal) {i : Nat} (hi : i < s.cfg.memWords) (v : Word) :
    State.Legal { s with mem := s.mem.writeWord i v } := by
  obtain ⟨hcfg, hmem, hwithin, hvbuf, hflags, hfatal⟩ := hs
  exact ⟨hcfg, Memory.wf_writeWord hmem i v, Memory.within_writeWord hwithin hi v, hvbuf, hflags, hfatal⟩

theorem State.Legal.draw {s : State} (hs : s.Legal) {f : DrawFn} {v : VBuf} (hv : runDraw f s = .ok v) :
    State.Legal { s with vbuf := v } := by
  obtain ⟨hcfg, hmem, hwithin, hvbuf, hflags, hfatal⟩ := hs
  exact ⟨hcfg, hmem, hwithin, (runDraw_length hv).trans hvbuf, hflags, hfatal⟩

theorem State.Legal.halt {s : State} (hs : s.Legal) : s.halt.Legal := by
  obtain ⟨hcfg, hmem, hwithin, hvbuf, hflags, _⟩ := hs
  exact ⟨hcfg, hmem, hwithin, hvbuf, hflags, nofun⟩

/-! ### Every step -/

theorem Effect.cfg_eq {s t : State} {i : Instr} (h : Effect s i t) : t.cfg = s.cfg := by
  cases h <;> simp

/-- An instruction that lies inside memory keeps the state legal: no index it records is past 65537. -/
theorem Effect.legal {s t : State} {i : Instr} (h : Effect s i t) (hs : s.Legal)
    (hlen : s.pc.toNat + len i ≤ s.cfg.memWords) : t.Legal := by
  have ⟨⟨hsize, hsize', _⟩, _⟩ := hs
  have hn : s.pc.toNat + len i ≤ 65537 := by omega
  cases h with
  | skip _ rep => exact hs.advance hn rep
  | write _ d v => exact (hs.setReg d v).advance (by rwa [State.setReg_pc]) none
  | flag a b x y => exact (hs.compare x y).advance hn none
  | mem a b v hin => exact (hs.writeWord hin v).advance hn none
  | draw a f v hv => exact (hs.draw hv).advance hn none
  | jump => exact hs
  | halt => exact hs.halt
  | data _ x _ hout =>
    have hindex : effectiveIndex x ≤ 65537 := (Nat.div_le_self _ _).trans (x.isLt.le.trans (by decide))
    exact hs.raiseFatal (hsize.trans hout) hindex none

/-- Settles O15: the decoded instruction lies inside memory, a missing word is at most two words past the counter. -/
theorem stepKeepsTheStateLegal : Obligations.StepKeepsTheStateLegal := by
  intro s t hs hstep
  have hpc := s.pc.isLt
  obtain ⟨_, h⟩ | ⟨_, ⟨i, rest, hdec, h⟩ | ⟨k, hdec, h⟩ | ⟨_, _, h⟩⟩ := step_cases s
  · cases h.symm.trans hstep
    exact ⟨hs, rfl⟩
  · have heffect := effect_of_exec (h.symm.trans hstep)
    exact ⟨heffect.legal hs (pc_add_len_le hdec), heffect.cfg_eq⟩
  · cases h.symm.trans hstep
    have ⟨⟨hsize, _⟩, _⟩ := hs
    obtain ⟨hout, hk, _⟩ := missing_ge hdec
    exact ⟨hs.raiseFatal (hsize.trans hout) (by simp only [State.missingWord]; omega) none, rfl⟩
  · cases h.symm.trans hstep
    exact ⟨hs.advance (by omega) _, State.advance_cfg ..⟩

/-! ### Reset, the host's moves and the loader -/

theorem State.legal_resetOf {c : Config} (hc : c.wf) : (State.resetOf c).Legal :=
  ⟨hc, State.resetOf_mem_wf c, List.forall_mem_nil _, State.resetOf_vbuf_length c,
    by rw [State.resetOf_flags]; decide, nofun⟩

/-- Settles O14: the launch configuration is a legal one. -/
theorem resetIsLegal : Obligations.ResetIsLegal :=
  ⟨fun _ => State.legal_resetOf, State.legal_resetOf ⟨by decide, by decide, Tables.decided_wf⟩⟩

/-- Settles O16: the invariant speaks neither of registers nor of resources, and the loader writes inside memory. -/
theorem hostMovesKeepTheStateLegal : Obligations.HostMovesKeepTheStateLegal := by
  refine ⟨fun s m hs => ?_, fun c bytes s hc hboot => ?_⟩
  · cases m with
    | key | resources => exact hs
    | reset =>
      obtain ⟨hcfg, _⟩ := hs
      exact State.legal_resetOf hcfg
  · rcases Nat.lt_or_ge c.memWords ((bytes.length + 1) / 2) with hlong | hfits
    · cases (State.boot_eq_none hlong).symm.trans hboot
    · cases (State.boot_eq_some hfits).symm.trans hboot
      obtain ⟨_, hmem, hwithin, hvbuf, hflags, hfatal⟩ := State.legal_resetOf hc
      refine ⟨hc, Memory.wf_fill _ 0 hmem, Memory.within_fill _ 0 hwithin ?_, hvbuf, hflags, hfatal⟩
      rwa [length_wordsOfBytes, Nat.zero_add]

/-! ### The ports -/

theorem State.get_writeKey_k0 (s : State) (k : Word) : (s.writeKey k).get .k0 = k := by
  simp [State.writeKey, State.get]

theorem State.get_writeKey_ne (s : State) (k : Word) {r : Reg} (hr : r ≠ .k0) : (s.writeKey k).get r = s.get r := by
  have hindex : (regIndex .k0).val ≠ (regIndex r).val := fun e => hr (regIndex_injective (Fin.ext e)).symm
  simp [State.writeKey, State.get, Vector.getElem_set_ne _ _ hindex]

/-- The four bytes of a cell in the order of the read-out (10_state.md R38). -/
def Color.bytes (c : Color) : List Byte := [c.r, c.g, c.b, c.a]

theorem Color.length_bytes (c : Color) : c.bytes.length = 4 := rfl

theorem getElem?_flatMap_bytes (v : VBuf) (i : Nat) {j : Nat} (hj : j < 4) :
    (v.flatMap Color.bytes)[4 * i + j]? = v[i]?.bind fun c => c.bytes[j]? := by
  induction v generalizing i with
  | nil => rfl
  | cons c v ih =>
    rw [List.flatMap_cons]
    cases i with
    | zero =>
      rw [List.getElem?_append_left (by rwa [Color.length_bytes, Nat.mul_zero, Nat.zero_add]), Nat.mul_zero,
        Nat.zero_add]
      rfl
    | succ i =>
      have hnext : 4 * (i + 1) + j - c.bytes.length = 4 * i + j := by rw [Color.length_bytes]; omega
      rw [List.getElem?_append_right (by rw [Color.length_bytes]; omega), hnext, ih i, List.getElem?_cons_succ]

theorem State.readout_of_length {s : State} (h : s.vbuf.length = s.cfg.vbufLen) :
    s.readout = s.vbuf.flatMap Color.bytes := by
  rw [State.readout, ← h, List.take_length]
  rfl

/-- Settles O60: cell `i` of a full buffer is the bytes from `4 i` of the read-out. -/
theorem hostPortsTouchK0AndReadTheCanvas : Obligations.HostPortsTouchK0AndReadTheCanvas := by
  refine fun s => ⟨fun k => ⟨s.get_writeKey_k0 k, fun r hr => s.get_writeKey_ne k hr, rfl⟩, fun hlen => ?_⟩
  rw [State.readout_of_length hlen]
  refine ⟨?_, fun i c hc => ?_⟩
  · simp [List.length_flatMap, Color.bytes, hlen, Nat.mul_comm]
  · have hbyte {j : Nat} (hj : j < 4) : (s.vbuf.flatMap Color.bytes)[4 * i + j]? = c.bytes[j]? := by
      rw [getElem?_flatMap_bytes s.vbuf i hj, hc, Option.bind_some]
    exact ⟨hbyte (j := 0) (by decide), hbyte (j := 1) (by decide), hbyte (j := 2) (by decide),
      hbyte (j := 3) (by decide)⟩

end Sys2Proof.Machine
end

section
/-! Frames (10_state.md sections 2 and 3, 40_step_cycle.md R114, 60_exceptions.md): what an instruction or a step leaves
unchanged, one lemma over `Effect` for each part of the state. -/

namespace Sys2Proof.Machine

open Sys2Proof.Claims

/-! ### Registers -/

theorem destReg_ne_k0 (i : Instr) : destReg i ≠ some .k0 := by
  cases i with
  | mov a | add a | sub a | mul a | div a | inc a | load a =>
    simp only [destReg]
    split
    · exact nofun
    · assumption
  | _ => exact nofun

theorem Effect.get_eq {s t : State} {i : Instr} (h : Effect s i t) {r : Reg} (hr : destReg i ≠ some r) :
    t.get r = s.get r := by
  cases h with
  | write _ d v hd =>
    have hne : r ≠ d := fun e => hr (e ▸ hd)
    rw [State.advance_get, State.get_setReg_ne s hne]
  | skip | flag | mem | draw => exact State.advance_get ..
  | jump | halt | data => rfl

/-- Settles O17: of the effects, one writes a register, the destination. -/
theorem instructionsWriteOnlyTheirDestinationRegister : Obligations.InstructionsWriteOnlyTheirDestinationRegister :=
  fun _ _ _ hexec _ => (effect_of_exec hexec).get_eq

/-- Settles O18: K0 is no instruction's destination, and a step without an instruction writes no register. -/
theorem noStepChangesTheInputRegister : Obligations.NoStepChangesTheInputRegister := by
  intro s t hstep
  obtain ⟨_, h⟩ | ⟨_, ⟨i, _, _, h⟩ | ⟨_, _, h⟩ | ⟨_, _, h⟩⟩ := step_cases s
  · cases h.symm.trans hstep
    rfl
  · exact (effect_of_exec (h.symm.trans hstep)).get_eq (destReg_ne_k0 i)
  · cases h.symm.trans hstep
    rfl
  · cases h.symm.trans hstep
    exact State.advance_get ..

/-! ### Flags, memory, VBUF -/

theorem Effect.flags_high {s t : State} {i : Instr} (h : Effect s i t) :
    t.flags.extractLsb' 1 15 = s.flags.extractLsb' 1 15 := by
  cases h <;> simp

theorem Effect.flags_eq {s t : State} {i : Instr} (h : Effect s i t) (hi : i.opcode ≠ .cmp) : t.flags = s.flags := by
  cases h with
  | flag => exact absurd rfl hi
  | _ => simp

/-- Memory is written by `store` alone, and at one word. -/
theorem Effect.mem_cases {s t : State} {i : Instr} (h : Effect s i t) :
    t.mem = s.mem ∨ ∃ a b v, i = .store a b ∧ t.mem = s.mem.writeWord (effectiveIndex a.raw) v := by
  cases h with
  | mem a b v => exact .inr ⟨a, b, v, rfl, State.advance_mem ..⟩
  | _ => left; simp

/-- Settles O20: the two bytes of the word written are all that `Memory.writeWord` changes. -/
theorem onlyTheStoredWordOfMemoryChanges : Obligations.OnlyTheStoredWordOfMemoryChanges := by
  intro i s t hexec
  obtain hmem | ⟨a, b, v, rfl, hmem⟩ := (effect_of_exec hexec).mem_cases
  · rw [hmem]
    exact ⟨fun _ _ => rfl, fun _ _ _ _ _ _ => rfl⟩
  · refine ⟨fun hstore => absurd rfl hstore, fun a' b' h x hlo hhi => ?_⟩
    cases h
    rw [hmem, Memory.readByte_writeWord_ne _ _ hlo hhi]

theorem Effect.vbuf_eq {s t : State} {i : Instr} (h : Effect s i t) (hi : i.opcode ≠ .call) : t.vbuf = s.vbuf := by
  cases h with
  | draw => exact absurd rfl hi
  | _ => simp

/-- Whatever a call does, it is the default advance from the state with the buffer it leaves. -/
theorem execCall_eq_advance {a : Operand} {s t : State} (h : exec (.call a) s = .next t) :
    ∃ v rep, t = State.advance { s with vbuf := v } 2 rep := by
  rcases hfn : s.cfg.tables.fnOf a.raw with _ | f
  · cases (execCall_of_none hfn).symm.trans h
    exact ⟨s.vbuf, _, rfl⟩
  · rcases hdraw : runDraw f s with rep | v
    · cases (execCall_of_error hfn hdraw).symm.trans h
      exact ⟨s.vbuf, _, rfl⟩
    · cases (execCall_of_ok hfn hdraw).symm.trans h
      exact ⟨v, _, rfl⟩

/-- Settles O21: both cases of the default advance from a state that differs in VBUF alone. -/
theorem onlyCallChangesTheVideoBuffer : Obligations.OnlyCallChangesTheVideoBuffer := by
  refine fun i s t hexec => ⟨(effect_of_exec hexec).vbuf_eq, fun hop => ?_⟩
  cases i with
  | call a =>
    obtain ⟨v, rep, rfl⟩ := execCall_eq_advance hexec
    refine ⟨?_, fun hle => ?_, fun hgt => ?_⟩
    · obtain ⟨_, h⟩ | ⟨_, h⟩ := State.advance_cases { s with vbuf := v } 2 rep
      · rw [h]
      · rw [h]
        rfl
    · obtain ⟨hpc, hrun, hfatal, _⟩ := State.advance_fields_of_le (s := { s with vbuf := v }) hle rep
      exact ⟨hrun, hfatal, hpc⟩
    · obtain ⟨hpc, hrun, hfatal, _⟩ := State.advance_fields_of_gt (s := { s with vbuf := v }) hgt rep
      exact ⟨hpc, hrun, hfatal⟩
  | _ => cases hop

/-! ### The counter -/

/-- From `s` the counter moves by `n` with the run state kept, or it stays and the machine is FATAL. -/
def MovesOrFails (s t : State) (n : Nat) : Prop :=
  t.pc = s.pc ∧ t.run = .fatal ∨ t.pc.toNat = s.pc.toNat + n ∧ t.run = s.run

/-- `u` is `s` with the instruction's effects. -/
theorem State.movesOrFails_advance {s u : State} (hpc : u.pc = s.pc) (hrun : u.run = s.run) (n : Nat)
    (rep : Option Report) : MovesOrFails s (u.advance n rep) n := by
  rcases Nat.lt_or_ge 65535 (u.pc.toNat + n) with hgt | hle
  · obtain ⟨hpc', hrun', _⟩ := State.advance_fields_of_gt hgt rep
    exact .inl ⟨hpc'.trans hpc, hrun'⟩
  · obtain ⟨hpc', hrun', _⟩ := State.advance_fields_of_le hle rep
    exact .inr ⟨hpc ▸ hpc', hrun'.trans hrun⟩

theorem Effect.movesOrFails {s t : State} {i : Instr} (h : Effect s i t)
    (hi : ¬(i.opcode = .jmp ∨ i.opcode = .je ∨ i.opcode = .jne)) (hhlt : i ≠ .hlt) : MovesOrFails s t (len i) := by
  cases h with
  | skip | flag | mem | draw => exact State.movesOrFails_advance rfl rfl _ _
  | write => exact State.movesOrFails_advance (State.setReg_pc ..) (State.setReg_run ..) _ _
  | jump _ _ hjump => exact absurd hjump hi
  | halt => exact absurd rfl hhlt
  | data => exact .inl ⟨rfl, rfl⟩

/-- Settles O22: hlt stays where it is, and any other instruction but a jump moves by its length or fails. -/
theorem onlyJumpsLeaveTheSequence : Obligations.OnlyJumpsLeaveTheSequence := by
  intro i s t hexec hjmp hje hjne
  by_cases hhlt : i = .hlt
  · subst hhlt
    cases hexec
    exact .inl ⟨rfl, .inr rfl⟩
  · obtain ⟨hpc, hrun⟩ | ⟨hpc, hrun⟩ := (effect_of_exec hexec).movesOrFails (by simp [hjmp, hje, hjne]) hhlt
    · exact .inl ⟨hpc, .inl hrun⟩
    · exact .inr ⟨by rw [hpc, Nat.add_assoc], hrun⟩

/-! ### Fatal errors -/

theorem State.cause_of_advance_fatal {s : State} {n : Nat} {rep : Option Report}
    (hfatal : (s.advance n rep).run = .fatal) (hrun : s.run = .running) :
    (s.advance n rep).fatal.cause = .pcOverflow := by
  rcases Nat.lt_or_ge 65535 (s.pc.toNat + n) with hgt | hle
  · obtain ⟨_, _, hrec, _⟩ := State.advance_fields_of_gt hgt rep
    rw [hrec]
  · obtain ⟨_, hkeep, _⟩ := State.advance_fields_of_le hle rep
    cases (hkeep.trans hrun).symm.trans hfatal

/-- Of an instruction's effects, those that enter FATAL before the advance are data accesses outside memory. -/
theorem Effect.dataBounds {s t : State} {i : Instr} (h : Effect s i t) (hrun : s.run = .running)
    (hfatal : t.run = .fatal) (hcause : t.fatal.cause ≠ .pcOverflow) :
    ∃ x, (∃ a b, i = .load a b ∧ x = b.raw ∨ i = .store a b ∧ x = a.raw) ∧ s.cfg.memWords ≤ effectiveIndex x ∧
      t = failed s .dataBounds (effectiveIndex x) none := by
  cases h with
  | skip | flag | mem | draw => exact absurd (State.cause_of_advance_fatal hfatal hrun) hcause
  | write => exact absurd (State.cause_of_advance_fatal hfatal ((State.setReg_run ..).trans hrun)) hcause
  | jump => cases hrun.symm.trans hfatal
  | halt => cases hfatal
  | data _ x hi hout => exact ⟨x, hi, hout, rfl⟩

/-- Settles O23: a missing word or a data access outside memory is `State.raiseFatal` at its index. -/
theorem fatalBoundsErrorsChangeNothingElse : Obligations.FatalBoundsErrorsChangeNothingElse := by
  intro s t hrun hstep hfatal hcause
  obtain ⟨hstop, _⟩ | ⟨_, ⟨i, rest, hdec, h⟩ | ⟨k, hdec, h⟩ | ⟨_, _, h⟩⟩ := step_cases s
  · contradiction
  · obtain ⟨x, ⟨a, b, hi⟩, hout, rfl⟩ := (effect_of_exec (h.symm.trans hstep)).dataBounds hrun hfatal hcause
    refine ⟨rfl, hout, nofun, nofun, fun _ => ⟨i, rest, a, b, hdec, ?_⟩⟩
    obtain ⟨hload, rfl⟩ | ⟨hstore, rfl⟩ := hi
    · exact .inl ⟨hload, rfl⟩
    · exact .inr ⟨hstore, rfl⟩
  · cases h.symm.trans hstep
    obtain ⟨hout, hk, hin⟩ := missing_ge hdec
    match k with
    | 0 => exact ⟨rfl, hout, fun _ => rfl, nofun, nofun⟩
    | 1 => exact ⟨rfl, hout, nofun, fun _ => ⟨hin (by decide), .inl rfl⟩, nofun⟩
    | 2 => exact ⟨rfl, hout, nofun, fun _ => ⟨hin (by decide), .inr rfl⟩, nofun⟩
  · cases h.symm.trans hstep
    exact absurd (State.cause_of_advance_fatal hfatal hrun) hcause

/-! ### Reports -/

/-- What a report leaves unchanged. -/
def SameData (s t : State) : Prop := t.regs = s.regs ∧ t.flags = s.flags ∧ t.mem = s.mem ∧ t.vbuf = s.vbuf

theorem State.sameData_advance (s : State) (n : Nat) (rep : Option Report) : SameData s (s.advance n rep) :=
  ⟨State.advance_regs .., State.advance_flags .., State.advance_mem .., State.advance_vbuf ..⟩

theorem Effect.sameData {s t : State} {i : Instr} (h : Effect s i t) (hrep : t.result.report ≠ none) :
    SameData s t := by
  cases h with
  | skip => exact s.sameData_advance _ _
  | write | flag | mem | draw => exact absurd (State.advance_report ..) hrep
  | jump | halt | data => exact absurd rfl hrep

/-- Settles O25: only the default advance carries a report, the one that the instruction emits wherever it stands. -/
theorem reportingStepsHaveNoEffect : Obligations.ReportingStepsHaveNoEffect := by
  refine ⟨fun s t hstep hrep => ?_, fun i s t u hi ht hu => ?_⟩
  · obtain ⟨_, h⟩ | ⟨_, ⟨i, _, _, h⟩ | ⟨_, _, h⟩ | ⟨_, _, h⟩⟩ := step_cases s
    · cases h.symm.trans hstep
      exact absurd rfl hrep
    · exact (effect_of_exec (h.symm.trans hstep)).sameData hrep
    · cases h.symm.trans hstep
      exact absurd rfl hrep
    · cases h.symm.trans hstep
      exact s.sameData_advance _ _
  · obtain ⟨_, _, _, _, rep, hexec⟩ := advancesAnywhere_of_takesDefaultAdvance hi
    cases (hexec s.pc).symm.trans ht
    cases (hexec 0).symm.trans hu
    rw [State.advance_report, State.advance_report]

/-! ### A stored word, fetched or loaded -/

/-- Settles O26: the window at the stored word begins with it. -/
theorem storedWordIsFetchedNext : Obligations.StoredWordIsFetchedNext := by
  refine fun s a b r hmem hreg hin => ⟨_, execStore_of_lt hreg hin, fun p hp => ?_⟩
  rw [State.window_of_lt (by simpa [hp] using hin), List.head?_cons, Option.some_inj, hp, State.advance_mem]
  exact Memory.readWord_writeWord_self hmem _ _

/-- Settles O35: the load's word is inside memory as the store's was, and holds what the store left. -/
theorem loadAfterStoreGivesTheStoredValue : Obligations.LoadAfterStoreGivesTheStoredValue := by
  refine fun s u a b c r d hmem hreg hin hdest hd => ⟨_, execStore_of_lt hreg hin, fun hcfg hword => ?_⟩
  have hin' : effectiveIndex a.raw < u.cfg.memWords := by rwa [hcfg, State.advance_cfg]
  refine ⟨_, execLoad_of_lt hdest hd hin', ?_⟩
  rw [State.advance_get, State.get_setReg_self u hd, hword, State.advance_mem]
  exact Memory.readWord_writeWord_self hmem _ _

end Sys2Proof.Machine
end

section
/-! Noninterference (10_state.md R26, 70_reset_and_hazards.md R308): an instruction that does not look at the flags or
at the resources does the same whatever they hold. -/

namespace Sys2Proof.Machine

section
variable (g : Word → Word) (bmp : Option (List Byte) → Option (List Byte))
  (glyphs : List (Word × List Sample) → List (Word × List Sample))

/-- `s` with other flags and other resources. -/
def State.mapUnread (s : State) : State :=
  { s with flags := g s.flags, cfg := { s.cfg with bmpRes := bmp s.cfg.bmpRes, glyphs := glyphs s.cfg.glyphs } }

variable {g bmp glyphs}

/-! ### The operations -/

theorem State.advance_mapUnread (s : State) (n : Nat) (rep : Option Report) :
    (s.mapUnread g bmp glyphs).advance n rep = (s.advance n rep).mapUnread g bmp glyphs := by
  rcases Nat.lt_or_ge 65535 (s.pc.toNat + n) with hgt | hle
  · rw [State.advance_of_gt hgt, State.advance_of_gt (by exact hgt)]
    rfl
  · rw [State.advance_of_le hle, State.advance_of_le (by exact hle)]
    rfl

theorem State.setReg_mapUnread (s : State) (d : Reg) (v : Word) :
    (s.mapUnread g bmp glyphs).setReg d v = (s.setReg d v).mapUnread g bmp glyphs := by
  unfold State.setReg
  split <;> rfl

theorem withSlot_mapUnread (slot : Except Report Reg) (n : Nat) (s : State) {k k' : Reg → State}
    (hk : ∀ r, k' r = (k r).mapUnread g bmp glyphs) :
    withSlot slot n (s.mapUnread g bmp glyphs) k' = (withSlot slot n s k).mapUnread g bmp glyphs := by
  cases slot with
  | error rep => exact s.advance_mapUnread n _
  | ok r => exact hk r

theorem updateReg_mapUnread (a : Operand) (n : Nat) (f : Word → Word) (s : State) :
    updateReg a n f (s.mapUnread g bmp glyphs) = (updateReg a n f s).mapUnread g bmp glyphs :=
  withSlot_mapUnread _ n s fun d => by
    rw [State.setReg_mapUnread, State.advance_mapUnread]
    rfl

/-- Of the draw functions, draw_bmp and draw_character alone look at the resources. -/
theorem runDraw_mapUnread {f : DrawFn} (hbmp : f ≠ .drawBmp) (hchar : f ≠ .drawCharacter) (s : State) :
    runDraw f (s.mapUnread g bmp glyphs) = runDraw f s := by
  cases f with
  | drawBmp => contradiction
  | drawCharacter => contradiction
  | _ => rfl

/-! ### The instructions -/

theorem execDiv_mapUnread (a b : Operand) (s : State) {t : State} (h : exec (.div a b) s = .next t) :
    exec (.div a b) (s.mapUnread g bmp glyphs) = .next (t.mapUnread g bmp glyphs) := by
  cases h
  refine congrArg Host.Outcome.next (withSlot_mapUnread _ 3 s fun d => ?_)
  split
  · exact s.advance_mapUnread 3 _
  · rw [State.setReg_mapUnread, State.advance_mapUnread]
    rfl

theorem execLoad_mapUnread (a b : Operand) (s : State) {t : State} (h : exec (.load a b) s = .next t) :
    exec (.load a b) (s.mapUnread g bmp glyphs) = .next (t.mapUnread g bmp glyphs) := by
  cases h
  refine congrArg Host.Outcome.next (withSlot_mapUnread _ 3 s fun d => ?_)
  rcases Nat.lt_or_ge (effectiveIndex (valueSlot b)) s.cfg.memWords with hin | hout
  · rw [State.memRead_of_lt hin, State.memRead_of_lt (by exact hin)]
    simp only [State.setReg_mapUnread, State.advance_mapUnread]
    rfl
  · rw [State.memRead_of_ge hout, State.memRead_of_ge (by exact hout)]
    rfl

theorem execStore_mapUnread (a b : Operand) (s : State) {t : State} (h : exec (.store a b) s = .next t) :
    exec (.store a b) (s.mapUnread g bmp glyphs) = .next (t.mapUnread g bmp glyphs) := by
  cases h
  refine congrArg Host.Outcome.next (withSlot_mapUnread _ 3 s fun r => ?_)
  rcases Nat.lt_or_ge (effectiveIndex (valueSlot a)) s.cfg.memWords with hin | hout
  · rw [State.memWrite_of_lt hin, State.memWrite_of_lt (by exact hin)]
    exact State.advance_mapUnread { s with mem := s.mem.writeWord _ (s.get r) } 3 none
  · rw [State.memWrite_of_ge hout, State.memWrite_of_ge (by exact hout)]
    rfl

theorem execCall_mapUnread (a : Operand) (s : State) {t : State} (h : exec (.call a) s = .next t)
    (hdraw : ∀ f, s.cfg.tables.fnOf a.raw = some f → runDraw f (s.mapUnread g bmp glyphs) = runDraw f s) :
    exec (.call a) (s.mapUnread g bmp glyphs) = .next (t.mapUnread g bmp glyphs) := by
  rcases hfn : s.cfg.tables.fnOf a.raw with _ | f
  · cases (execCall_of_none hfn).symm.trans h
    rw [execCall_of_none (by exact hfn), State.advance_mapUnread]
  · rcases hv : runDraw f s with rep | v
    · cases (execCall_of_error hfn hv).symm.trans h
      rw [execCall_of_error (by exact hfn) ((hdraw f hfn).trans hv), State.advance_mapUnread]
    · cases (execCall_of_ok hfn hv).symm.trans h
      rw [execCall_of_ok (by exact hfn) ((hdraw f hfn).trans hv)]
      exact congrArg Host.Outcome.next (State.advance_mapUnread { s with vbuf := v } 2 none)

/-- The instructions that look at the flags (10_state.md R26): they write Z, or they test it. -/
def UsesFlags (i : Instr) : Prop := i.opcode = .cmp ∨ i.opcode = .je ∨ i.opcode = .jne

/-- Neither the flags nor the resources change what an instruction does that looks at neither. -/
theorem exec_mapUnread {i : Instr} {s t : State} (h : exec i s = .next t) (hflags : ¬ UsesFlags i)
    (hdraw : ∀ a f, i = .call a → s.cfg.tables.fnOf a.raw = some f →
      runDraw f (s.mapUnread g bmp glyphs) = runDraw f s) :
    exec i (s.mapUnread g bmp glyphs) = .next (t.mapUnread g bmp glyphs) := by
  cases i with
  | nop => cases h; exact congrArg Host.Outcome.next (s.advance_mapUnread 1 none)
  | mov a b | add a b | sub a b | mul a b | inc a =>
    cases h
    exact congrArg Host.Outcome.next (updateReg_mapUnread a _ _ s)
  | div a b => exact execDiv_mapUnread a b s h
  | load a b => exact execLoad_mapUnread a b s h
  | store a b => exact execStore_mapUnread a b s h
  | call a => exact execCall_mapUnread a s h fun f => hdraw a f rfl
  | jmp a | hlt => cases h; rfl
  | cmp a b => exact absurd (.inl rfl) hflags
  | je a => exact absurd (.inr (.inl rfl)) hflags
  | jne a => exact absurd (.inr (.inr rfl)) hflags

/-- What uses the flags looks at no resource. -/
theorem exec_mapUnread_of_usesFlags {i : Instr} {s t : State} (h : exec i s = .next t) (hflags : UsesFlags i) :
    exec i (s.mapUnread id bmp glyphs) = .next (t.mapUnread id bmp glyphs) := by
  have hjump (z : Bool) (a : Operand) :
      jumpIf z a (s.mapUnread id bmp glyphs) = (jumpIf z a s).mapUnread id bmp glyphs := by
    cases z with
    | false => exact s.advance_mapUnread 2 none
    | true => rfl
  cases i with
  | cmp a b =>
    cases h
    exact congrArg Host.Outcome.next
      (withSlot_mapUnread _ 3 s fun r =>
        State.advance_mapUnread (g := id) (s.compare (s.get r) b.raw) 3 none)
  | je a => cases h; exact congrArg Host.Outcome.next (hjump s.z a)
  | jne a => cases h; exact congrArg Host.Outcome.next (hjump (!s.z) a)
  | _ => simp [UsesFlags, Instr.opcode] at hflags

end

/-! ### The obligations -/

/-- Settles O19: `cmp` is the one effect on the flags, and an instruction that does not use them runs under any. -/
theorem flagsAreWrittenByCmpAndReadByJumpsAlone : Obligations.FlagsAreWrittenByCmpAndReadByJumpsAlone := by
  intro i s t hexec
  have heffect := effect_of_exec hexec
  refine ⟨heffect.flags_high, heffect.flags_eq, fun hcmp hje hjne f => ?_⟩
  exact exec_mapUnread (g := fun _ => f) (bmp := id) (glyphs := id) hexec (by simp [UsesFlags, hcmp, hje, hjne])
    fun _ f _ _ => by cases f <;> rfl

/-- Settles O51: other resources in place, the draw function selected looks at neither. -/
theorem onlyTwoDrawFunctionsReadTheResources : Obligations.OnlyTwoDrawFunctionsReadTheResources := by
  intro i s t bmp glyphs hexec hcall
  by_cases hflags : UsesFlags i
  · exact exec_mapUnread_of_usesFlags (bmp := fun _ => bmp) (glyphs := fun _ => glyphs) hexec hflags
  · refine exec_mapUnread (g := id) (bmp := fun _ => bmp) (glyphs := fun _ => glyphs) hexec hflags
      fun a f hi hfn => ?_
    obtain ⟨hbmp, hchar⟩ := hcall a hi
    exact runDraw_mapUnread (fun h => hbmp (h ▸ hfn)) (fun h => hchar (h ▸ hfn)) s

end Sys2Proof.Machine
end

section
/-! The draw functions in their set forms (46_draw_basic.md to 49_draw_bitmap_glyph.md): a call that paints, cell by
cell, and the obligations about the cells of each function. -/

namespace Sys2Proof.Machine

open Sys2Proof.Claims

/-! ### A call that paints -/

/-- Painting twice is painting once: where the second paints it covers the first. -/
theorem paint_paint (W H : Nat) (f g : Int → Int → Option Color) (v : VBuf) :
    paint W H g (paint W H f v) = paint W H (fun x y => (g x y).or (f x y)) v := by
  refine List.ext_getElem? fun i => ?_
  rw [getElem?_paint, getElem?_paint, getElem?_paint, Option.map_map]
  congr 1
  funext old
  simp only [Function.comp_apply, paintCell]
  split
  · cases g (i % W : Nat) (i / W : Nat) <;> rfl
  · rfl

/-- A call whose draw function paints the canvas point `(x, y)` with `g x y`. -/
theorem draws_of_paint {a : Operand} {f : DrawFn} {s : State} {g : Int → Int → Option Color}
    {cell : Nat → Nat → Color → Color → Prop} (hcalls : Calls a f s)
    (hrun : runDraw f s = .ok (paint s.cfg.canvasW s.cfg.canvasH g s.vbuf))
    (hcell : ∀ (x y : Nat) old, cell x y old ((g x y).getD old)) : Draws a s cell := by
  refine ⟨_, execCall_eq_advanced hcalls hrun, rfl, length_paint .., fun x y old hx hy hold => ?_⟩
  refine ⟨_, ?_, hcell x y old⟩
  rw [getElem?_paint, hold, Option.map_some, paintCell_xy g hx hy]

theorem paints_ite {covered : Nat → Nat → Prop} {x y : Nat} {p : Prop} [Decidable p] (h : p ↔ covered x y)
    (color old : Color) : Paints covered color x y old ((if p then some color else none).getD old) := by
  refine ⟨fun hc => ?_, fun hc => ?_⟩
  · rw [if_pos (h.2 hc), Option.getD_some]
  · rw [if_neg fun hp => hc (h.1 hp), Option.getD_none]

/-! ### One color: fill_rect, draw_line, fill_quad -/

/-- Settles O45: the extent on each axis. -/
theorem fillRectPaintsTheCenteredSquare : Obligations.FillRectPaintsTheCenteredSquare := by
  refine fun s a hcalls => draws_of_paint hcalls rfl fun x y old => paints_ite ?_ _ _
  simp only [inExtent, Bool.and_eq_true, decide_eq_true_eq, and_assoc]

/-- The disc of a stepped pixel, with the products of `inDisc` written as squares. -/
theorem inDisc_iff (r : Nat) (p : Point) (x y : Int) :
    inDisc r p x y = true ↔ (x - p.x) ^ 2 + (y - p.y) ^ 2 ≤ (r : Int) ^ 2 := by
  rw [inDisc, decide_eq_true_eq, pow_two, pow_two, pow_two]

/-- Settles O46: the union of the discs. -/
theorem drawLinePaintsADiscAtEveryStep : Obligations.DrawLinePaintsADiscAtEveryStep := by
  refine fun s a hcalls => draws_of_paint hcalls rfl fun x y old => paints_ite ?_ _ _
  simp only [List.any_eq_true, inDisc_iff]

/-- The two triangles of fill_quad have one color, so they paint as one set. -/
theorem fillQuad_eq_paint (W H : Nat) (color : Color) (p1 p2 p3 p4 : Point) (v : VBuf) :
    fillQuad W H color p1 p2 p3 p4 v = paint W H (fun x y =>
      if insideTriangle ⟨x, y⟩ p1 p2 p3 = true ∨ insideTriangle ⟨x, y⟩ p1 p3 p4 = true then some color
      else none) v := by
  rw [fillQuad, fillTriangle, fillTriangle, paint_paint]
  congr 1
  funext x y
  cases insideTriangle ⟨x, y⟩ p1 p2 p3 <;> cases insideTriangle ⟨x, y⟩ p1 p3 p4 <;> rfl

/-- Settles O47: the union of the two triangles. -/
theorem fillQuadPaintsBothTriangles : Obligations.FillQuadPaintsBothTriangles :=
  fun _ _ hcalls => draws_of_paint hcalls (congrArg Except.ok (fillQuad_eq_paint ..)) fun _ _ _ =>
    paints_ite Iff.rfl _ _

/-! ### draw_bmp -/

/-- The canvas cells of a picture at `pos` (49_draw_bitmap_glyph.md R245). -/
abbrev InPicture (hdr : BmpHeader) (pos : Point) (x y : Int) : Prop :=
  pos.x ≤ x ∧ x < pos.x + hdr.w ∧ pos.y ≤ y ∧ y < pos.y + hdr.h

/-- File pixel `(fx, fy)` lands on the canvas point `(x, y)`, file row 0 at the bottom. -/
def LandsOn (hdr : BmpHeader) (pos : Point) (fx fy : Nat) (x y : Int) : Prop :=
  x = pos.x + fx ∧ y = pos.y + (hdr.h - 1 - fy)

theorem inPicture_of_landsOn {hdr : BmpHeader} {pos : Point} {fx fy : Nat} {x y : Int} (hx : fx < hdr.w)
    (hy : fy < hdr.h) (h : LandsOn hdr pos fx fy x y) :
    InPicture hdr pos x y ∧ (x - pos.x).toNat = fx ∧ hdr.h - 1 - (y - pos.y).toNat = fy := by
  obtain ⟨rfl, rfl⟩ := h
  refine ⟨⟨?_, ?_, ?_, ?_⟩, ?_, ?_⟩ <;> omega

theorem landsOn_of_inPicture {hdr : BmpHeader} {pos : Point} {x y : Int} (h : InPicture hdr pos x y) :
    (x - pos.x).toNat < hdr.w ∧ hdr.h - 1 - (y - pos.y).toNat < hdr.h ∧
      LandsOn hdr pos (x - pos.x).toNat (hdr.h - 1 - (y - pos.y).toNat) x y := by
  obtain ⟨hx0, hx1, hy0, hy1⟩ := h
  refine ⟨?_, ?_, ?_, ?_⟩ <;> omega

/-- Settles O48: a canvas cell is in the picture exactly when a file pixel lands on it, the one that is read. -/
theorem drawBmpCopiesTheBottomUpRows : Obligations.DrawBmpCopiesTheBottomUpRows := by
  refine fun s a hcalls => ⟨fun hrefused => execCall_error_eq_advanced hcalls (runDraw_drawBmp_of_refused hrefused),
    fun res hdr hres hparse => draws_of_paint hcalls (runDraw_drawBmp_of_accepted hres hparse) fun x y old =>
      ⟨fun fx fy hfx hfy hx hy => ?_, fun hno => ?_⟩⟩
  · obtain ⟨hin, hfx', hfy'⟩ := inPicture_of_landsOn hfx hfy ⟨hx, hy⟩
    rw [if_pos hin, Option.getD_some, hfx', hfy']
    rfl
  · rw [if_neg fun hin => ?_, Option.getD_none]
    obtain ⟨hfx, hfy, hland⟩ := landsOn_of_inPicture hin
    exact hno _ _ hfx hfy hland

/-! ### draw_character -/

/-- The clipped pixel write in set form. -/
theorem putPixel_eq_paint (W H : Nat) (v : VBuf) (x y : Int) (c : Color) :
    putPixel W H v x y c = paint W H (fun cx cy => if cx = x ∧ cy = y then some c else none) v := by
  refine List.ext_getElem? fun i => ?_
  rw [getElem?_putPixel, getElem?_paint]
  by_cases hi : i < W * H ∧ x = (i % W : Nat) ∧ y = (i / W : Nat)
  · obtain ⟨hlt, hx, hy⟩ := hi
    rw [if_pos ⟨hlt, hx, hy⟩]
    congr 1
    funext old
    rw [paintCell, if_pos hlt, if_pos ⟨hx.symm, hy.symm⟩, Option.getD_some]
  · have hkeep : paintCell W H (fun cx cy => if cx = x ∧ cy = y then some c else none) i = id := by
      funext old
      unfold paintCell
      split
      next hlt =>
        have hno : ¬(((i % W : Nat) : Int) = x ∧ ((i / W : Nat) : Int) = y) :=
          fun ⟨hx, hy⟩ => hi ⟨hlt, hx.symm, hy.symm⟩
        simp only [if_neg hno, Option.getD_none, id]
      next => rfl
    rw [if_neg hi, hkeep, Option.map_id, id]

/-- What a list of painters leaves at a canvas point: the last that paints there wins. -/
def overlay {α : Type} (f : α → Int → Int → Option Color) : List α → Int → Int → Option Color
  | [], _, _ => none
  | a :: l, x, y => (overlay f l x y).or (f a x y)

theorem foldl_paint {α : Type} (W H : Nat) (f : α → Int → Int → Option Color) (l : List α) (v : VBuf) :
    l.foldl (fun v a => paint W H (f a) v) v = paint W H (overlay f l) v := by
  induction l generalizing v with
  | nil => exact (paint_eq_self (fun _ _ => rfl) v).symm
  | cons a l ih =>
    rw [List.foldl_cons, ih, paint_paint]
    rfl

theorem overlay_eq_none_iff {α : Type} {f : α → Int → Int → Option Color} {l : List α} {x y : Int} :
    overlay f l x y = none ↔ ∀ a ∈ l, f a x y = none := by
  induction l with
  | nil => exact iff_of_true rfl (List.forall_mem_nil _)
  | cons a l ih => rw [overlay, Option.or_eq_none_iff, ih, List.forall_mem_cons, and_comm]

theorem overlay_of_last {α : Type} {f : α → Int → Int → Option Color} (before : List α) {a : α} {after : List α}
    {x y : Int} {c : Color} (ha : f a x y = some c) (h : ∀ b ∈ after, f b x y = none) :
    overlay f (before ++ a :: after) x y = some c := by
  induction before with
  | nil => rw [List.nil_append, overlay, overlay_eq_none_iff.2 h, ha, Option.none_or]
  | cons _ before ih => rw [List.cons_append, overlay, ih, Option.some_or]

/-- What a sample of a glyph at `pos` paints (49_draw_bitmap_glyph.md R253). -/
def sampleCell (pos : Point) (color : Color) (d : Sample) (x y : Int) : Option Color :=
  if x = pos.x + d.dx ∧ y = pos.y + d.dy then some (composite color d.cov) else none

theorem blitGlyph_eq_paint (W H : Nat) (g : List Sample) (pos : Point) (color : Color) (v : VBuf) :
    blitGlyph W H g pos color v = paint W H (overlay (sampleCell pos color) g) v := by
  rw [← foldl_paint, blitGlyph]
  simp only [putPixel_eq_paint]
  rfl

/-- Settles O50: the fold over the samples paints what the last sample at a cell says. -/
theorem drawCharacterKeepsTheLastSample : Obligations.DrawCharacterKeepsTheLastSample := by
  refine fun s a hcalls => ⟨fun hnone => execCall_error_eq_advanced hcalls ?_, fun g hg => ?_⟩
  · simp only [runDraw, runDrawCharacter, drawCharacter, hnone]
  · have hrun : runDraw .drawCharacter s =
        .ok (paint s.cfg.canvasW s.cfg.canvasH (overlay (sampleCell s.argP1 s.argColor) g) s.vbuf) := by
      simp only [runDraw, runDrawCharacter, drawCharacter, hg, blitGlyph_eq_paint]
    refine draws_of_paint hcalls hrun fun x y old => ⟨fun hno => ?_, fun before d after hsplit hd hafter => ?_⟩
    · rw [overlay_eq_none_iff.2 fun d hd => if_neg (hno d hd), Option.getD_none]
    · rw [hsplit, overlay_of_last before (if_pos hd) fun e he => if_neg (hafter e he), Option.getD_some]

end Sys2Proof.Machine
end

section
/-! The triangle test (48_draw_triangle_quad.md R231): the signs of the barycentric numerators, the closed triangle over
the rationals, and its bounding box. -/

namespace Sys2Proof.Machine

/-- The third barycentric numerator (48_draw_triangle_quad.md R231). -/
def baryC (p p1 p2 p3 : Point) : Int := baryD p1 p2 p3 - baryA p p2 p3 - baryB p p1 p3

/-- The test with its third numerator named. -/
theorem insideTriangle_eq (p p1 p2 p3 : Point) : insideTriangle p p1 p2 p3 =
    if baryD p1 p2 p3 = 0 then false
    else if 0 < baryD p1 p2 p3 then
      decide (0 ≤ baryA p p2 p3) && decide (0 ≤ baryB p p1 p3) && decide (0 ≤ baryC p p1 p2 p3)
    else decide (baryA p p2 p3 ≤ 0) && decide (baryB p p1 p3 ≤ 0) && decide (baryC p p1 p2 p3 ≤ 0) := rfl

theorem cast_div_nonneg_of_pos {n d : Int} (hd : 0 < d) : 0 ≤ (n : ℚ) / d ↔ 0 ≤ n := by
  rw [le_div_iff₀ (Int.cast_pos.2 hd), zero_mul, Int.cast_nonneg_iff]

theorem cast_div_nonneg_of_neg {n d : Int} (hd : d < 0) : 0 ≤ (n : ℚ) / d ↔ n ≤ 0 := by
  rw [le_div_iff_of_neg (Int.cast_lt_zero.2 hd), zero_mul, Int.cast_nonpos]

/-- In both orientations the signs tested are those of the quotients by `D`. -/
theorem insideTriangle_iff_quotients (p p1 p2 p3 : Point) : insideTriangle p p1 p2 p3 = true ↔
    baryD p1 p2 p3 ≠ 0 ∧ 0 ≤ (baryA p p2 p3 : ℚ) / baryD p1 p2 p3 ∧ 0 ≤ (baryB p p1 p3 : ℚ) / baryD p1 p2 p3 ∧
      0 ≤ (baryC p p1 p2 p3 : ℚ) / baryD p1 p2 p3 := by
  rw [insideTriangle_eq]
  rcases lt_trichotomy (baryD p1 p2 p3) 0 with hneg | hzero | hpos
  · simp [hneg.ne, hneg.not_gt, cast_div_nonneg_of_neg hneg, and_assoc]
  · simp [hzero]
  · simp [hpos.ne', hpos, cast_div_nonneg_of_pos hpos, and_assoc]

/-- `w1`, `w2`, `w3` are barycentric coordinates of `p` (48_draw_triangle_quad.md R231). -/
def Barycentric (p p1 p2 p3 : Point) (w1 w2 w3 : ℚ) : Prop :=
  w1 + w2 + w3 = 1 ∧ (p.x : ℚ) = w1 * p1.x + w2 * p2.x + w3 * p3.x ∧ (p.y : ℚ) = w1 * p1.y + w2 * p2.y + w3 * p3.y

/-- Cleared of `D`, each equation is a polynomial identity of integers. -/
theorem barycentric_quotients (p : Point) {p1 p2 p3 : Point} (hD : baryD p1 p2 p3 ≠ 0) :
    Barycentric p p1 p2 p3 ((baryA p p2 p3 : ℚ) / baryD p1 p2 p3) ((baryB p p1 p3 : ℚ) / baryD p1 p2 p3)
      ((baryC p p1 p2 p3 : ℚ) / baryD p1 p2 p3) := by
  have hD' : (baryD p1 p2 p3 : ℚ) ≠ 0 := Int.cast_ne_zero.2 hD
  refine ⟨?_, ?_, ?_⟩ <;> field_simp <;> norm_cast <;> simp only [baryC, baryA, baryB, baryD] <;> ring

/-- In a triangle that is not degenerate the barycentric coordinates are the quotients. -/
theorem Barycentric.eq_quotients {p p1 p2 p3 : Point} {w1 w2 w3 : ℚ} (h : Barycentric p p1 p2 p3 w1 w2 w3)
    (hD : baryD p1 p2 p3 ≠ 0) :
    w1 = (baryA p p2 p3 : ℚ) / baryD p1 p2 p3 ∧ w2 = (baryB p p1 p3 : ℚ) / baryD p1 p2 p3 ∧
      w3 = (baryC p p1 p2 p3 : ℚ) / baryD p1 p2 p3 := by
  have hD' : (baryD p1 p2 p3 : ℚ) ≠ 0 := Int.cast_ne_zero.2 hD
  obtain ⟨hsum, hx, hy⟩ := h
  obtain rfl : w3 = 1 - w1 - w2 := by linarith
  rw [eq_div_iff hD', eq_div_iff hD', eq_div_iff hD']
  simp only [baryC, baryA, baryB, baryD]
  push_cast
  rw [hx, hy]
  refine ⟨?_, ?_, ?_⟩ <;> ring

/-- Settles O57: the quotients are the barycentric coordinates, and there are no others. -/
theorem insideIsTheClosedTriangle : Obligations.InsideIsTheClosedTriangle := by
  intro p p1 p2 p3
  rw [insideTriangle_iff_quotients]
  refine and_congr_right fun hD => ⟨fun ⟨ha, hb, hc⟩ => ?_, fun ⟨w1, w2, w3, h1, h2, h3, hw⟩ => ?_⟩
  · exact ⟨_, _, _, ha, hb, hc, barycentric_quotients p hD⟩
  · obtain ⟨rfl, rfl, rfl⟩ := Barycentric.eq_quotients hw hD
    exact ⟨h1, h2, h3⟩

/-! ### The bounding box -/

/-- A convex combination lies between the least and the greatest of its terms. -/
theorem convex_le_max3 {w1 w2 w3 : ℚ} (h1 : 0 ≤ w1) (h2 : 0 ≤ w2) (h3 : 0 ≤ w3) (hsum : w1 + w2 + w3 = 1)
    {z a b c : Int} (hz : (z : ℚ) = w1 * a + w2 * b + w3 * c) : z ≤ max3 a b c := by
  have ha : (a : ℚ) ≤ max3 a b c := Int.cast_le.2 (le_max_left ..)
  have hb : (b : ℚ) ≤ max3 a b c := Int.cast_le.2 ((le_max_left ..).trans (le_max_right ..))
  have hc : (c : ℚ) ≤ max3 a b c := Int.cast_le.2 ((le_max_right ..).trans (le_max_right ..))
  have hle : (z : ℚ) ≤ max3 a b c := by
    calc (z : ℚ) = w1 * a + w2 * b + w3 * c := hz
      _ ≤ w1 * max3 a b c + w2 * max3 a b c + w3 * max3 a b c := by gcongr
      _ = max3 a b c := by rw [← add_mul, ← add_mul, hsum, one_mul]
  exact_mod_cast hle

theorem min3_eq_neg_max3 (a b c : Int) : min3 a b c = -max3 (-a) (-b) (-c) := by
  simp only [min3, max3, max_neg_neg, neg_neg]

theorem min3_le_convex {w1 w2 w3 : ℚ} (h1 : 0 ≤ w1) (h2 : 0 ≤ w2) (h3 : 0 ≤ w3) (hsum : w1 + w2 + w3 = 1)
    {z a b c : Int} (hz : (z : ℚ) = w1 * a + w2 * b + w3 * c) : min3 a b c ≤ z := by
  have hneg : ((-z : Int) : ℚ) = w1 * (-a : Int) + w2 * (-b : Int) + w3 * (-c : Int) := by
    push_cast
    rw [hz]
    ring
  rw [min3_eq_neg_max3]
  exact neg_le.1 (convex_le_max3 h1 h2 h3 hsum hneg)

/-- The bounding box that the loop of fill_triangle scans never cuts the triangle (48_draw_triangle_quad.md R230). -/
theorem insideTriangle_bounds {p p1 p2 p3 : Point} (h : insideTriangle p p1 p2 p3 = true) :
    (min3 p1.x p2.x p3.x ≤ p.x ∧ p.x ≤ max3 p1.x p2.x p3.x) ∧
      min3 p1.y p2.y p3.y ≤ p.y ∧ p.y ≤ max3 p1.y p2.y p3.y := by
  obtain ⟨_, w1, w2, w3, h1, h2, h3, hsum, hx, hy⟩ := (insideIsTheClosedTriangle p p1 p2 p3).1 h
  exact ⟨⟨min3_le_convex h1 h2 h3 hsum hx, convex_le_max3 h1 h2 h3 hsum hx⟩,
    min3_le_convex h1 h2 h3 hsum hy, convex_le_max3 h1 h2 h3 hsum hy⟩

end Sys2Proof.Machine
end

section
/-! The loops of the draw functions (Machine/DrawLoops.lean) and their set forms: a loop of painters leaves at each
canvas point what the set form paints there, when its painters agree with it and none is missing. -/

namespace Sys2Proof.Machine

/-! ### A loop of painters -/

theorem exists_of_overlay_eq_some {α : Type} {f : α → Int → Int → Option Color} {l : List α} {x y : Int} {c : Color}
    (h : overlay f l x y = some c) : ∃ a ∈ l, f a x y = some c := by
  induction l with
  | nil => cases h
  | cons a l ih =>
    rw [overlay, Option.or_eq_some_iff] at h
    obtain hl | ⟨_, ha⟩ := h
    · obtain ⟨b, hb, hfb⟩ := ih hl
      exact ⟨b, List.mem_cons_of_mem a hb, hfb⟩
    · exact ⟨a, List.mem_cons_self, ha⟩

/-- The overlay of a list is a painter `g` when what `g` paints is what some member of the list paints. -/
theorem overlay_eq {α : Type} {f : α → Int → Int → Option Color} {l : List α} {g : Int → Int → Option Color}
    (hg : ∀ x y c, g x y = some c ↔ ∃ a ∈ l, f a x y = some c) : overlay f l = g := by
  funext x y
  rcases hover : overlay f l x y with _ | c
  · refine (Option.eq_none_iff_forall_ne_some.2 fun c hc => ?_).symm
    obtain ⟨a, ha, hfa⟩ := (hg x y c).1 hc
    cases (overlay_eq_none_iff.1 hover a ha).symm.trans hfa
  · exact ((hg x y c).2 (exists_of_overlay_eq_some hover)).symm

theorem foldl_eq_paint {α : Type} {W H : Nat} {step : VBuf → α → VBuf} {f : α → Int → Int → Option Color}
    {l : List α} {g : Int → Int → Option Color} (hstep : ∀ v a, step v a = paint W H (f a) v)
    (hg : ∀ x y c, g x y = some c ↔ ∃ a ∈ l, f a x y = some c) (v : VBuf) : l.foldl step v = paint W H g v := by
  obtain rfl : step = fun v a => paint W H (f a) v := funext₂ hstep
  rw [foldl_paint, overlay_eq hg]

/-- The row and column loops are one loop over the points of the rectangle. -/
theorem forRows_eq_foldl (ys xs : List Int) (body : VBuf → Int → Int → VBuf) (v : VBuf) :
    forRows ys xs body v = (ys ×ˢ xs).foldl (fun v p => body v p.2 p.1) v := by
  simp only [forRows, SProd.sprod, List.product, List.foldl_flatMap, List.foldl_map]

theorem forRows_eq_paint {W H : Nat} {ys xs : List Int} {body : VBuf → Int → Int → VBuf}
    {f : Int → Int → Int → Int → Option Color} {g : Int → Int → Option Color}
    (hbody : ∀ v x y, body v x y = paint W H (f x y) v)
    (hg : ∀ cx cy c, g cx cy = some c ↔ ∃ y ∈ ys, ∃ x ∈ xs, f x y cx cy = some c) (v : VBuf) :
    forRows ys xs body v = paint W H g v := by
  rw [forRows_eq_foldl]
  refine foldl_eq_paint (f := fun p => f p.2 p.1) (fun v p => hbody v p.2 p.1) (fun cx cy c => ?_) v
  rw [hg]
  simp only [Prod.exists, List.mem_product, and_assoc, exists_and_left]

/-- One iteration of a loop: a clipped pixel write behind a test. -/
theorem ite_putPixel_eq_paint {W H : Nat} {x y : Int} {color : Color} (p : Prop) [Decidable p] (v : VBuf) :
    (if p then putPixel W H v x y color else v) =
      paint W H (fun cx cy => if p ∧ cx = x ∧ cy = y then some color else none) v := by
  by_cases hp : p
  · simp only [hp, if_true, true_and, putPixel_eq_paint]
  · simp only [hp, if_false, false_and, paint_eq_self (fun _ _ => rfl)]

/-! ### fill_rect -/

theorem inExtent_iff (c : Int) (size : Nat) (z : Int) :
    inExtent c size z = true ↔ z ∈ intRange (c - (size / 2 : Nat)) size := by
  rw [inExtent, mem_intRange, Bool.and_eq_true, decide_eq_true_eq, decide_eq_true_eq]
  omega

/-- Settles O53: the loops run over the extent on each axis. -/
theorem fillRectLoopIsItsSetForm : Obligations.FillRectLoopIsItsSetForm := by
  intro W H color center size v
  unfold fillRectLoop fillRect
  refine forRows_eq_paint (fun v x y => by exact putPixel_eq_paint ..) (fun cx cy c => ?_) v
  simp only [Bool.and_eq_true, inExtent_iff, Option.ite_none_right_eq_some]
  constructor
  · rintro ⟨⟨hx, hy⟩, hc⟩
    exact ⟨cy, hy, cx, hx, ⟨rfl, rfl⟩, hc⟩
  · rintro ⟨y, hy, x, hx, ⟨rfl, rfl⟩, hc⟩
    exact ⟨⟨hx, hy⟩, hc⟩

/-! ### draw_line -/

/-- The scanned offsets never cut the disc (47_draw_line.md R217). -/
theorem mem_intRange_of_sq_le {t : Nat} {a b : Int} (h : a * a + b * b ≤ ((t / 2 : Nat) : Int) * (t / 2 : Nat)) :
    a ∈ intRange (-t) (2 * t + 1) := by
  have hsq : a ^ 2 ≤ ((t / 2 : Nat) : Int) ^ 2 := by nlinarith [mul_self_nonneg b]
  have habs : |a| ≤ (t / 2 : Nat) := abs_le_of_sq_le_sq hsq (Int.natCast_nonneg _)
  rw [mem_intRange]
  rw [abs_le] at habs
  omega

theorem stampLoop_eq_paint (W H : Nat) (p : Point) (t : Nat) (color : Color) (v : VBuf) :
    stampLoop W H p t color v = paint W H (fun x y => if inDisc (t / 2) p x y = true then some color else none) v := by
  unfold stampLoop
  refine forRows_eq_paint (fun v x y => by exact ite_putPixel_eq_paint _ v) (fun cx cy c => ?_) v
  simp only [Option.ite_none_right_eq_some, inDisc, decide_eq_true_eq]
  constructor
  · rintro ⟨hdisc, hc⟩
    refine ⟨cy - p.y, mem_intRange_of_sq_le (b := cx - p.x) (by rwa [add_comm]), cx - p.x,
      mem_intRange_of_sq_le hdisc, ⟨hdisc, ?_, ?_⟩, hc⟩
    · exact (add_sub_cancel ..).symm
    · exact (add_sub_cancel ..).symm
  · rintro ⟨oy, _, ox, _, ⟨hdisc, rfl, rfl⟩, hc⟩
    exact ⟨by rwa [add_sub_cancel_left, add_sub_cancel_left], hc⟩

/-- Settles O54: every stamp is a disc, and the line their union. -/
theorem drawLineLoopIsItsSetForm : Obligations.DrawLineLoopIsItsSetForm := by
  refine fun W H color p q t v => foldl_eq_paint (fun v s => stampLoop_eq_paint W H s t color v) (fun x y c => ?_) v
  simp only [Option.ite_none_right_eq_some, List.any_eq_true]
  constructor
  · rintro ⟨⟨s, hs, hdisc⟩, hc⟩
    exact ⟨s, hs, hdisc, hc⟩
  · rintro ⟨s, hs, hdisc, hc⟩
    exact ⟨⟨s, hs, hdisc⟩, hc⟩

/-! ### fill_triangle -/

/-- The range from the least to the greatest of a bounding box, both included. -/
theorem mem_intRange_of_bounds {lo hi z : Int} (hlo : lo ≤ z) (hhi : z ≤ hi) :
    z ∈ intRange lo (hi - lo + 1).toNat := by
  rw [mem_intRange]
  omega

/-- Settles O55: what is inside lies in the bounding box. -/
theorem fillTriangleLoopIsItsSetForm : Obligations.FillTriangleLoopIsItsSetForm := by
  intro W H color p1 p2 p3 v
  unfold fillTriangleLoop fillTriangle
  refine forRows_eq_paint (fun v x y => by exact ite_putPixel_eq_paint _ v) (fun cx cy c => ?_) v
  simp only [Option.ite_none_right_eq_some]
  constructor
  · rintro ⟨hin, hc⟩
    obtain ⟨⟨hx0, hx1⟩, hy0, hy1⟩ := insideTriangle_bounds hin
    exact ⟨cy, mem_intRange_of_bounds hy0 hy1, cx, mem_intRange_of_bounds hx0 hx1, ⟨hin, rfl, rfl⟩, hc⟩
  · rintro ⟨y, _, x, _, ⟨hin, rfl, rfl⟩, hc⟩
    exact ⟨hin, hc⟩

/-! ### draw_bmp -/

/-- Settles O56: file pixels and the canvas cells of the picture determine each other. -/
theorem blitBmpLoopIsItsSetForm : Obligations.BlitBmpLoopIsItsSetForm := by
  intro W H res hdr pos v
  unfold blitBmpLoop blitBmp
  refine forRows_eq_paint (fun v x y => by exact putPixel_eq_paint ..) (fun cx cy c => ?_) v
  simp only [Option.ite_none_right_eq_some, mem_intRange]
  constructor
  · rintro ⟨hin, hc⟩
    obtain ⟨hfx, hfy, hx, hy⟩ := landsOn_of_inPicture hin
    exact ⟨_, ⟨Int.natCast_nonneg _, by omega⟩, _, ⟨Int.natCast_nonneg _, by omega⟩, ⟨hx, hy⟩, hc⟩
  · rintro ⟨y, ⟨hy0, hy1⟩, x, ⟨hx0, hx1⟩, ⟨hx, hy⟩, hc⟩
    lift x to Nat using hx0
    lift y to Nat using hy0
    obtain ⟨hin, hfx, hfy⟩ := inPicture_of_landsOn (hdr := hdr) (pos := pos) (by omega) (by omega) ⟨hx, hy⟩
    exact ⟨hin, by rwa [hfx, hfy]⟩

end Sys2Proof.Machine
end

section
/-! Steps (47_draw_line.md R216) in closed form: pixel `k` of the line lies, on each axis, at the exact distance from
the start rounded half up, and the properties of the loop are read off that. -/

namespace Sys2Proof.Machine

/-! ### The offset on one axis -/

/-- How far pixel `k` of a line of `m + 1` pixels has moved along an axis whose end lies `d` away: `d * k / m`, a half
rounded up. -/
def axisOffset (m d k : Nat) : Nat := (2 * (d * k) + m) / (2 * m)

/-- The offset is the distance rounded: the one number within a half of it. -/
theorem axisOffset_eq_iff {m : Nat} (hm : 0 < m) (d k j : Nat) :
    axisOffset m d k = j ↔ 2 * (m * j) ≤ 2 * (d * k) + m ∧ 2 * (d * k) < 2 * (m * j) + m := by
  have hj : j * (2 * m) = 2 * (m * j) := by ring
  rw [axisOffset, Nat.div_eq_iff (by omega), hj]
  omega

theorem axisOffset_zero (m d : Nat) : axisOffset m d 0 = 0 := by
  rcases Nat.eq_zero_or_pos m with rfl | hm
  · simp [axisOffset]
  · exact (axisOffset_eq_iff hm d 0 0).2 (by omega)

theorem axisOffset_zero_dist (m k : Nat) : axisOffset m 0 k = 0 := by
  rw [axisOffset, Nat.zero_mul, ← Nat.mul_zero 0, ← axisOffset, axisOffset_zero]

/-- Along the longer axis every pixel is one further. -/
theorem axisOffset_self {m k : Nat} (hk : k ≤ m) : axisOffset m m k = k := by
  rcases Nat.eq_zero_or_pos m with rfl | hm
  · rw [Nat.le_zero.1 hk, axisOffset_zero]
  · exact (axisOffset_eq_iff hm m k k).2 (by omega)

theorem axisOffset_end {m d : Nat} (hd : d ≤ m) : axisOffset m d m = d := by
  rcases Nat.eq_zero_or_pos m with rfl | hm
  · rw [Nat.le_zero.1 hd, axisOffset_zero]
  · exact (axisOffset_eq_iff hm d m d).2 (by rw [Nat.mul_comm d m]; omega)

/-- The next pixel moves along the axis when the exact line has passed the half. -/
theorem axisOffset_succ {m d : Nat} (hm : 0 < m) (hd : d ≤ m) (k : Nat) : axisOffset m d (k + 1) =
    if 2 * (m * axisOffset m d k) + m ≤ 2 * (d * (k + 1)) then axisOffset m d k + 1 else axisOffset m d k := by
  have hbounds := (axisOffset_eq_iff hm d k _).1 rfl
  have hline := Nat.mul_add_one d k
  have hmove := Nat.mul_add_one m (axisOffset m d k)
  split
  · exact (axisOffset_eq_iff hm d (k + 1) _).2 (by omega)
  · exact (axisOffset_eq_iff hm d (k + 1) _).2 (by omega)

/-! ### The line -/

/-- The direction of a line along an axis. -/
def axisSign (a b : Int) : Int := if a < b then 1 else -1

theorem axisSign_mul_natAbs (a b : Int) : axisSign a b * (b - a).natAbs = b - a := by
  unfold axisSign
  split <;> omega

/-- Pixel `k` on one axis of a line of `m + 1` pixels from `a` to `b`. -/
def axisPoint (m : Nat) (a b : Int) (k : Nat) : Int := a + axisSign a b * axisOffset m (b - a).natAbs k

theorem axisPoint_zero (m : Nat) (a b : Int) : axisPoint m a b 0 = a := by
  rw [axisPoint, axisOffset_zero, Int.natCast_zero, mul_zero, add_zero]

theorem axisPoint_end {m : Nat} {a b : Int} (hm : (b - a).natAbs ≤ m) : axisPoint m a b m = b := by
  rw [axisPoint, axisOffset_end hm, axisSign]
  split <;> omega

theorem axisPoint_of_natAbs_eq {m k : Nat} {a b : Int} (hm : (b - a).natAbs = m) (hk : k ≤ m) :
    axisPoint m a b k = a + axisSign a b * k := by
  rw [axisPoint, hm, axisOffset_self hk]

theorem axisPoint_same (m k : Nat) (a : Int) : axisPoint m a a k = a := by
  rw [axisPoint, sub_self, Int.natAbs_zero, axisOffset_zero_dist, Int.natCast_zero, mul_zero, add_zero]

/-- The number of moves from `p` to `q`. -/
def stepCount (p q : Point) : Nat := max (q.x - p.x).natAbs (q.y - p.y).natAbs

theorem natAbs_x_le_stepCount (p q : Point) : (q.x - p.x).natAbs ≤ stepCount p q := le_max_left _ _

theorem natAbs_y_le_stepCount (p q : Point) : (q.y - p.y).natAbs ≤ stepCount p q := le_max_right _ _

theorem Point.eq_of_coordinates {p q : Point} (hx : p.x = q.x) (hy : p.y = q.y) : p = q :=
  congrArg₂ Point.mk hx hy

/-- Pixel `k` of the line from `p` to `q`. -/
def linePoint (p q : Point) (k : Nat) : Point :=
  { x := axisPoint (stepCount p q) p.x q.x k, y := axisPoint (stepCount p q) p.y q.y k }

theorem linePoint_zero (p q : Point) : linePoint p q 0 = p := by
  rw [linePoint, axisPoint_zero, axisPoint_zero]

theorem linePoint_end (p q : Point) : linePoint p q (stepCount p q) = q := by
  rw [linePoint, axisPoint_end (natAbs_x_le_stepCount p q), axisPoint_end (natAbs_y_le_stepCount p q)]

/-- The longer axis tells the pixels apart. -/
theorem linePoint_injective {p q : Point} {k l : Nat} (hk : k ≤ stepCount p q) (hl : l ≤ stepCount p q)
    (h : linePoint p q k = linePoint p q l) : k = l := by
  have haxis {a b : Int} (hm : (b - a).natAbs = stepCount p q)
      (h : axisPoint (stepCount p q) a b k = axisPoint (stepCount p q) a b l) : k = l := by
    rw [axisPoint_of_natAbs_eq hm hk, axisPoint_of_natAbs_eq hm hl, axisSign] at h
    split at h <;> omega
  rcases max_choice (q.x - p.x).natAbs (q.y - p.y).natAbs with hm | hm
  · exact haxis hm.symm (congrArg Point.x h)
  · exact haxis hm.symm (congrArg Point.y h)

/-- The loop's test for the end fails at every pixel before it. -/
theorem linePoint_before_end {p q : Point} {k : Nat} (hk : k < stepCount p q) :
    ¬((linePoint p q k).x = q.x ∧ (linePoint p q k).y = q.y) := by
  rintro ⟨hx, hy⟩
  have hend : linePoint p q k = linePoint p q (stepCount p q) :=
    (Point.eq_of_coordinates hx hy).trans (linePoint_end p q).symm
  exact absurd (linePoint_injective hk.le le_rfl hend) hk.ne

/-! ### The loop -/

/-- The loop's error before pixel `k`, for an end `A` away along x and `B` along y. -/
def lineError (A B k : Nat) : Int :=
  A * (1 + axisOffset (max A B) B k) - B * (1 + axisOffset (max A B) A k)

theorem lineError_swap (A B k : Nat) : lineError B A k = -lineError A B k := by
  rw [lineError, lineError, max_comm, neg_sub]

/-- The loop's test for a move along x is the rounding of the next pixel: where y is the longer axis the two are the
same inequality, and where x is, both hold. -/
theorem neg_le_lineError_iff {A B k : Nat} (hk : k < max A B) : -(B : Int) ≤ 2 * lineError A B k ↔
    2 * (max A B * axisOffset (max A B) A k) + max A B ≤ 2 * (A * (k + 1)) := by
  unfold lineError
  rcases le_total A B with hAB | hBA
  · rw [max_eq_right hAB] at hk ⊢
    rw [axisOffset_self hk.le]
    zify
    constructor <;> intro h <;> linarith
  · rw [max_eq_left hBA] at hk ⊢
    obtain ⟨_, hhi⟩ := (axisOffset_eq_iff (by omega) B k _).1 (rfl : axisOffset A B k = _)
    rw [axisOffset_self hk.le]
    zify at hhi hBA ⊢
    constructor <;> intro h <;> linarith

/-- The test for a move along y is that along x with the axes exchanged. -/
theorem lineError_le_iff {A B k : Nat} (hk : k < max A B) : 2 * lineError A B k ≤ (A : Int) ↔
    2 * (max A B * axisOffset (max A B) B k) + max A B ≤ 2 * (B * (k + 1)) := by
  have h := neg_le_lineError_iff (A := B) (B := A) (k := k) (by rwa [max_comm])
  rw [max_comm B A, lineError_swap] at h
  rw [← h]
  constructor <;> intro h <;> linarith

theorem axisPoint_succ {m k : Nat} {a b : Int} (hm : 0 < m) (hd : (b - a).natAbs ≤ m) : axisPoint m a b (k + 1) =
    if 2 * (m * axisOffset m (b - a).natAbs k) + m ≤ 2 * ((b - a).natAbs * (k + 1))
    then axisPoint m a b k + axisSign a b else axisPoint m a b k := by
  unfold axisPoint
  rw [axisOffset_succ hm hd]
  split
  · push_cast
    ring
  · rfl

theorem lineError_succ {A B k : Nat} (hk : k < max A B) : lineError A B (k + 1) =
    lineError A B k + (if -(B : Int) ≤ 2 * lineError A B k then -(B : Int) else 0) +
      (if 2 * lineError A B k ≤ (A : Int) then (A : Int) else 0) := by
  simp only [neg_le_lineError_iff hk, lineError_le_iff hk]
  unfold lineError
  rw [axisOffset_succ (by omega) (le_max_left A B), axisOffset_succ (by omega) (le_max_right A B)]
  split <;> split <;> push_cast <;> ring

theorem stepsFrom_stop {dx dy sx sy x y err : Int} {stop : Point} (h : x = stop.x ∧ y = stop.y) (n : Nat) :
    stepsFrom dx dy sx sy stop n x y err = [{ x := x, y := y }] := by
  cases n with
  | zero => rfl
  | succ n => rw [stepsFrom, if_pos h]

theorem stepsFrom_move {dx dy sx sy x y err : Int} {stop : Point} (h : ¬(x = stop.x ∧ y = stop.y)) (n : Nat) :
    stepsFrom dx dy sx sy stop (n + 1) x y err = { x := x, y := y } ::
      stepsFrom dx dy sx sy stop n (if dy ≤ 2 * err then x + sx else x) (if 2 * err ≤ dx then y + sy else y)
        (err + (if dy ≤ 2 * err then dy else 0) + (if 2 * err ≤ dx then dx else 0)) := by
  rw [stepsFrom, if_neg h]

/-- The loop of Steps for `p` and `q`, from pixel `(x, y)`. -/
abbrev lineFrom (p q : Point) (n : Nat) (x y err : Int) : List Point :=
  stepsFrom ((q.x - p.x).natAbs : Int) (-((q.y - p.y).natAbs : Int)) (axisSign p.x q.x) (axisSign p.y q.y) q n x y err

/-- From pixel `k`, with `m` moves left and a bound of no less, the loop emits the pixels to the end. -/
theorem lineFrom_linePoint (p q : Point) {m k n : Nat} (hk : k + m = stepCount p q) (hn : m ≤ n) :
    lineFrom p q n (linePoint p q k).x (linePoint p q k).y (lineError (q.x - p.x).natAbs (q.y - p.y).natAbs k) =
      (List.range' k (m + 1)).map (linePoint p q) := by
  induction m generalizing k n with
  | zero =>
    obtain rfl : k = stepCount p q := hk
    rw [lineFrom, stepsFrom_stop (by rw [linePoint_end]; exact ⟨rfl, rfl⟩)]
    rfl
  | succ m ih =>
    obtain ⟨n, rfl⟩ : ∃ n', n = n' + 1 := ⟨n - 1, by omega⟩
    have hlt : k < stepCount p q := by omega
    have hx : (linePoint p q (k + 1)).x = _ := axisPoint_succ (by omega) (natAbs_x_le_stepCount p q)
    have hy : (linePoint p q (k + 1)).y = _ := axisPoint_succ (by omega) (natAbs_y_le_stepCount p q)
    rw [lineFrom, stepsFrom_move (linePoint_before_end hlt), List.range'_succ, List.map_cons,
      ← ih (k := k + 1) (by omega) (Nat.le_of_succ_le_succ hn), lineError_succ hlt, hx, hy]
    simp only [neg_le_lineError_iff hlt, lineError_le_iff hlt]
    rfl

/-- Any bound of `stepCount` or more gives the same pixels (log entry 17). -/
theorem lineFrom_eq (p q : Point) {n : Nat} (hn : stepCount p q ≤ n) :
    lineFrom p q n p.x p.y (((q.x - p.x).natAbs : Int) + -((q.y - p.y).natAbs : Int)) =
      (List.range (stepCount p q + 1)).map (linePoint p q) := by
  have h := lineFrom_linePoint p q (Nat.zero_add _) hn
  rw [linePoint_zero, lineError, axisOffset_zero, axisOffset_zero, ← List.range_eq_range'] at h
  rw [← h]
  congr 1
  simp [sub_eq_add_neg]

theorem steps_eq (p q : Point) : steps p q = (List.range (stepCount p q + 1)).map (linePoint p q) :=
  lineFrom_eq p q le_rfl

/-! ### Lists of pixels -/

theorem getElem?_steps {p q : Point} {k : Nat} (hk : k ≤ stepCount p q) : (steps p q)[k]? = some (linePoint p q k) := by
  rw [steps_eq, List.getElem?_map, List.getElem?_range (Nat.lt_succ_of_le hk), Option.map_some]

theorem length_steps (p q : Point) : (steps p q).length = stepCount p q + 1 := by
  rw [steps_eq, List.length_map, List.length_range]

theorem mem_steps {p q z : Point} : z ∈ steps p q ↔ ∃ k ≤ stepCount p q, linePoint p q k = z := by
  simp only [steps_eq, List.mem_map, List.mem_range, Nat.lt_succ_iff]

/-- One pixel further an axis moves by one or not at all. -/
theorem natAbs_axisPoint_succ_sub_le {m k : Nat} {a b : Int} (hm : 0 < m) (hd : (b - a).natAbs ≤ m) :
    (axisPoint m a b (k + 1) - axisPoint m a b k).natAbs ≤ 1 := by
  rw [axisPoint_succ hm hd]
  split
  · rw [add_sub_cancel_left, axisSign]
    split <;> decide
  · rw [sub_self]
    decide

/-- Neighbouring pixels of the list are neighbours on the canvas (47_draw_line.md R216). -/
theorem steps_neighbours {p q a b : Point} {k : Nat} (ha : (steps p q)[k]? = some a)
    (hb : (steps p q)[k + 1]? = some b) : a ≠ b ∧ (b.x - a.x).natAbs ≤ 1 ∧ (b.y - a.y).natAbs ≤ 1 := by
  obtain ⟨hlt, _⟩ := List.getElem?_eq_some_iff.1 hb
  rw [length_steps] at hlt
  have hk : k + 1 ≤ stepCount p q := Nat.le_of_lt_succ hlt
  obtain rfl : linePoint p q k = a := Option.some_inj.1 ((getElem?_steps (by omega)).symm.trans ha)
  obtain rfl : linePoint p q (k + 1) = b := Option.some_inj.1 ((getElem?_steps hk).symm.trans hb)
  refine ⟨fun h => ?_, natAbs_axisPoint_succ_sub_le (by omega) (natAbs_x_le_stepCount p q),
    natAbs_axisPoint_succ_sub_le (by omega) (natAbs_y_le_stepCount p q)⟩
  exact absurd (linePoint_injective (by omega) hk h) (by omega)

/-! ### Straight lines -/

/-- On one axis of a horizontal, vertical or exactly diagonal line of `m + 1` pixels nothing moves, or every pixel
does. -/
def StraightAxis (m : Nat) (a b : Int) : Prop := b = a ∨ (b - a).natAbs = m

/-- A pixel of a straight axis is exactly where the line is. -/
theorem StraightAxis.mul_axisPoint_sub {m k : Nat} {a b : Int} (h : StraightAxis m a b) (hk : k ≤ m) :
    m * (axisPoint m a b k - a) = k * (b - a) := by
  obtain rfl | hm := h
  · rw [axisPoint_same, sub_self]
    ring
  · have hend := axisSign_mul_natAbs a b
    rw [hm] at hend
    rw [axisPoint_of_natAbs_eq hm hk, ← hend]
    ring

theorem StraightAxis.axisPoint_between {m k : Nat} {a b : Int} (h : StraightAxis m a b) (hk : k ≤ m) :
    min a b ≤ axisPoint m a b k ∧ axisPoint m a b k ≤ max a b := by
  obtain rfl | hm := h
  · rw [axisPoint_same]
    simp
  · rw [axisPoint_of_natAbs_eq hm hk, axisSign]
    split <;> omega

theorem StraightAxis.collinear {m k : Nat} {a b c d : Int} (hab : StraightAxis m a b) (hcd : StraightAxis m c d)
    (hk : k ≤ m) : (axisPoint m a b k - a) * (d - c) = (axisPoint m c d k - c) * (b - a) := by
  rcases Nat.eq_zero_or_pos m with rfl | hpos
  · obtain rfl : b = a := by obtain h | h := hab <;> omega
    obtain rfl : d = c := by obtain h | h := hcd <;> omega
    rw [sub_self, sub_self, mul_zero, mul_zero]
  · have hm : (m : Int) ≠ 0 := by omega
    refine mul_left_cancel₀ hm ?_
    rw [← mul_assoc, ← mul_assoc, hab.mul_axisPoint_sub hk, hcd.mul_axisPoint_sub hk]
    ring

/-- Along the longer axis every place between the ends has its pixel. -/
theorem exists_axisPoint_eq {m : Nat} {a b z : Int} (hm : (b - a).natAbs = m) (hlo : min a b ≤ z)
    (hhi : z ≤ max a b) : ∃ k ≤ m, axisPoint m a b k = z := by
  have hk : (z - a).natAbs ≤ m := by omega
  refine ⟨(z - a).natAbs, hk, ?_⟩
  rw [axisPoint_of_natAbs_eq hm hk, axisSign]
  split <;> omega

/-- On the other axis the pixel is then where collinearity puts it. -/
theorem axisPoint_eq_of_collinear {m k : Nat} {a b c d w : Int} (hm : (b - a).natAbs = m) (hcd : StraightAxis m c d)
    (hk : k ≤ m) (hlo : min c d ≤ w) (hhi : w ≤ max c d)
    (hcol : (axisPoint m a b k - a) * (d - c) = (w - c) * (b - a)) : axisPoint m c d k = w := by
  rcases eq_or_ne b a with rfl | hne
  · obtain rfl : d = c := by obtain h | h := hcd <;> omega
    rw [axisPoint_same]
    omega
  · have hpixel := (StraightAxis.collinear (.inr hm) hcd hk).symm.trans hcol
    exact sub_left_inj.1 (mul_right_cancel₀ (sub_ne_zero.2 hne) hpixel)

/-- The pixels of a straight line are the cells of its bounding box that are collinear with its ends. -/
theorem mem_steps_of_straight {p q : Point} (hx : StraightAxis (stepCount p q) p.x q.x)
    (hy : StraightAxis (stepCount p q) p.y q.y) (z : Point) : z ∈ steps p q ↔
      (min p.x q.x ≤ z.x ∧ z.x ≤ max p.x q.x) ∧ (min p.y q.y ≤ z.y ∧ z.y ≤ max p.y q.y) ∧
        (z.x - p.x) * (q.y - p.y) = (z.y - p.y) * (q.x - p.x) := by
  rw [mem_steps]
  constructor
  · rintro ⟨k, hk, rfl⟩
    exact ⟨hx.axisPoint_between hk, hy.axisPoint_between hk, hx.collinear hy hk⟩
  · rintro ⟨⟨hx0, hx1⟩, ⟨hy0, hy1⟩, hcol⟩
    rcases max_choice (q.x - p.x).natAbs (q.y - p.y).natAbs with hm | hm
    · obtain ⟨k, hk, hkx⟩ := exists_axisPoint_eq hm.symm hx0 hx1
      have hky := axisPoint_eq_of_collinear hm.symm hy hk hy0 hy1 (by rwa [hkx])
      exact ⟨k, hk, Point.eq_of_coordinates hkx hky⟩
    · obtain ⟨k, hk, hky⟩ := exists_axisPoint_eq hm.symm hy0 hy1
      have hkx := axisPoint_eq_of_collinear hm.symm hx hk hx0 hx1 (by rwa [hky, eq_comm])
      exact ⟨k, hk, Point.eq_of_coordinates hkx hky⟩

theorem straightAxes {p q : Point}
    (h : q.y = p.y ∨ q.x = p.x ∨ (q.x - p.x).natAbs = (q.y - p.y).natAbs) :
    StraightAxis (stepCount p q) p.x q.x ∧ StraightAxis (stepCount p q) p.y q.y := by
  unfold StraightAxis stepCount
  omega

/-! ### The obligation -/

/-- Settles O58: the loop's pixels are the points `linePoint`, whatever larger bound it has. -/
theorem stepsReachTheEndPoint : Obligations.StepsReachTheEndPoint := by
  intro p q
  refine ⟨?_, ?_, length_steps p q, fun k a b => steps_neighbours, fun h => ?_, fun n hn => ?_⟩
  · rw [List.head?_eq_getElem?, getElem?_steps (Nat.zero_le _), linePoint_zero]
  · rw [List.getLast?_eq_getElem?, length_steps, Nat.add_sub_cancel, getElem?_steps le_rfl, linePoint_end]
  · obtain ⟨hx, hy⟩ := straightAxes h
    exact mem_steps_of_straight hx hy
  · exact (lineFrom_eq p q hn).trans (steps_eq p q).symm

end Sys2Proof.Machine
end
